-- ==== Sys2Proof/Word.lean ====
section
/-! DEFINITION. The word and byte of the block: a register holds 32 bits (R6, R20), a data-memory address names 8 (R55). -/
namespace Sys2Proof

/-- A register's value or a command word (R6, R77). -/
abbrev Word := BitVec 32

/-- One byte of data memory (R55). -/
abbrev Byte := BitVec 8

end Sys2Proof
end

