-- ==== Sys2Proof/Syntax.lean ====
section
/-! DEFINITION. The commands of the block, one constructor for each row of the opcode table (R78, R81). -/
namespace Sys2Proof

/-- A command. The operands that stand in registers (R103) are no part of it. -/
inductive Instr
  /-- NOP (R110). -/
  | nop
  /-- HUF.DEC (R140). -/
  | hufDec
  /-- RLE.DEC (R165). -/
  | rleDec
  /-- HAM.CFG k (R120): `k` is IMM16, "taken as an unsigned number" (R80). -/
  | hamCfg (k : Nat)
  /-- HAM.SYN (R123). -/
  | hamSyn
  /-- NOISE.INJ, and NOISE.INJ ent when the flag ENT is set (R79, R180). -/
  | noiseInj (ent : Bool)
  deriving DecidableEq, Repr

end Sys2Proof
end

