-- ==== Sys2Proof/WellFormed.lean ====
section
/-! DEFINITION. Which commands have an encoding (R85): the immediate of HAM.CFG must fit IMM16. Nothing else can fail: a
`k` that encodes and is no legal geometry is a legal word that completes with BAD_PARAM (R82). -/
namespace Sys2Proof

/-- R85: "An assembler refuses HAM.CFG with k > 65535, since the value cannot be encoded." -/
def immFits (k : Nat) : Bool := k ≤ 65535

/-- The commands that a command word can carry. -/
def Instr.wellFormed : Instr → Bool
  | .nop => true
  | .hufDec => true
  | .rleDec => true
  | .hamCfg k => immFits k
  | .hamSyn => true
  | .noiseInj _ => true

end Sys2Proof
end

