-- ==== Sys2Proof/Decode.lean ====
section
/-! DEFINITION. The command word (R77 to R84): its fields, the match and mask table of R81, the decoder, total on words and
refusing by name, and the encoder. -/
namespace Sys2Proof

/-! ## Fields (R77) -/

/-- OP, bits [7:0]. -/
def fieldOp (w : Word) : BitVec 8 := w.extractLsb' 0 8

/-- FLAGS, bits [15:8]. -/
def fieldFlags (w : Word) : BitVec 8 := w.extractLsb' 8 8

/-- IMM16, bits [31:16]. -/
def fieldImm (w : Word) : BitVec 16 := w.extractLsb' 16 16

/-- ENT, FLAGS[0], bit 8 of the word (R79). -/
def fieldEnt (w : Word) : Bool := w.getLsbD 8

/-! ## The match and mask table (R81) -/

/-- The operations OP selects (R78). -/
inductive Op
  | nop | hufDec | rleDec | hamCfg | hamSyn | noiseInj
  deriving DecidableEq, Repr

/-- One row of R81. `value` is the table's match. -/
structure OpcodeRow where
  op : Op
  value : Word
  mask : Word
  deriving DecidableEq, Repr

/-- R81: "A command word w selects an operation when (w AND mask) = match". -/
def OpcodeRow.selects (r : OpcodeRow) (w : Word) : Bool := (w &&& r.mask) == r.value

/-- R81, row for row. -/
def opcodeTable : List OpcodeRow :=
  [ ⟨.nop, 0x00000000#32, 0xFFFFFFFF#32⟩,
    ⟨.hufDec, 0x00000001#32, 0xFFFFFFFF#32⟩,
    ⟨.rleDec, 0x00000002#32, 0xFFFFFFFF#32⟩,
    ⟨.hamCfg, 0x00000003#32, 0x0000FFFF#32⟩,
    ⟨.hamSyn, 0x00000004#32, 0xFFFFFFFF#32⟩,
    ⟨.noiseInj, 0x00000005#32, 0xFFFFFEFF#32⟩ ]

/-! ## Decoding -/

/-- Why a word is illegal (R82). -/
inductive IllegalWord
  /-- OP is 0x06 to 0xFF. -/
  | reservedOp
  /-- a FLAGS bit that the operation reserves is 1. -/
  | reservedFlag
  /-- IMM16 is nonzero for an operation other than HAM.CFG. -/
  | reservedImm
  deriving DecidableEq, Repr

/-- The first reason of R82 that a word gives, for a word that matches no row. -/
def whyIllegal (w : Word) : IllegalWord :=
  if fieldOp w > 0x05#8 then .reservedOp
  else if fieldFlags w &&& (if fieldOp w = 0x05#8 then 0xFE#8 else 0xFF#8) ≠ 0#8 then .reservedFlag
  else .reservedImm

/-- A row's operation with the operands that stand in the word (R79, R80). -/
def Op.instr (op : Op) (w : Word) : Instr :=
  match op with
  | .nop => .nop
  | .hufDec => .hufDec
  | .rleDec => .rleDec
  | .hamCfg => .hamCfg (fieldImm w).toNat
  | .hamSyn => .hamSyn
  | .noiseInj => .noiseInj (fieldEnt w)

/-- R81, R82: the command a word stands for; a word that matches no row is illegal. -/
def decode (w : Word) : Except IllegalWord Instr :=
  match opcodeTable.find? (fun r => r.selects w) with
  | some r => .ok (r.op.instr w)
  | none => .error (whyIllegal w)

/-! ## Encoding (R85) -/

/-- The word of a command, by the assembler's table R85. -/
def encode : Instr → Word
  | .nop => 0x00000000#32
  | .hufDec => 0x00000001#32
  | .rleDec => 0x00000002#32
  | .hamCfg k => (BitVec.ofNat 32 k <<< 16) ||| 0x00000003#32
  | .hamSyn => 0x00000004#32
  | .noiseInj ent => if ent then 0x00000105#32 else 0x00000005#32

/-- What the decoder reads from an opcode-table row's bits. R84: every command is one 32-bit word, and R58: the word has no
byte order inside the block, so the table's bit numbers are the word's. -/
def decodeTableWord (nbits w : Nat) : Option Instr :=
  match decode (BitVec.ofNat 32 (w % 2 ^ nbits)) with
  | .ok i => some i
  | .error _ => none

end Sys2Proof
end

