-- ==== Sys2Proof/Config.lean ====
section
/-! DEFINITION. What the spec fixes for the block (R5), and the values it leaves free: those are opaque, with no body,
so that whatever is proved holds whatever they are. -/
namespace Sys2Proof.Config

/-- R21: the constant of the ID register, "CFX1". -/
def idValue : Word := 0x43465831#32

/-- R5: the largest SRC_LEN or DST_CAP a command accepts, 2^28 - 1 bytes. -/
def lenMax : Nat := 0x0FFFFFFF

/-- R5, R145: the capacity of the Huffman node arena. -/
def nodeMax : Nat := 511

/-- R5: the largest Hamming data-bit count. -/
def hamKMax : Nat := 65519

/-- R95, R182: 100 percent as an unsigned 16.16 fixed-point number. -/
def levelMax : Nat := 0x00640000

/-- R181: the divisor 100 * 65536 of the noise count. -/
def levelDivisor : Nat := 6553600

/-- R20: the size of the register window in bytes. -/
def windowBytes : Nat := 0x1000

/-- R183 (free): whether the implementation's generator, created from a seed, for N stream bits and a count, picks the bit
position given last. `noiseSelect` (Machine/Noise.lean) makes the set of R183 from it; every selection function with the
properties of R183 arises from some value of it. [log 9] -/
opaque noisePick : Word → Nat → Nat → Nat → Bool

/-- R185 (free): the entropy draw with a given number, "a free 32-bit input of the completion step". [log 8] -/
opaque entropyDraw : Nat → Word

/-- R223 (free): what an abandoned command leaves at an address that it leaves open: the abandonment's number, then the address.
[log 10] -/
opaque freeByte : Nat → Nat → Byte

end Sys2Proof.Config
end

