-- ==== Sys2Proof/Machine/State.lean ====
section
/-! DEFINITION. The state of the block and of what stands around it, as plain data (10_state.md, 20_memory.md R55, 00_scope.md R5). -/
namespace Sys2Proof.Machine

/-! ## Registers (R20 to R46) -/

/-- The registers of the window, by name; the offsets are in Machine/HostAccess.lean. -/
inductive Reg
  | id | cmd | status | irqEn | ctrl | srcAddr | srcLen | dstAddr | dstCap | outLen | hamK | hamGeom | hamBitoff
  | syndrome | noiseLevel | noiseSeed | flipCount | hufInfo
  deriving DecidableEq, Repr

/-- R49: the engine's phase, reported as STATUS.BUSY. -/
inductive Phase
  | idle | busy
  deriving DecidableEq, Repr

/-- What the registers of the window store. ID is a constant, CTRL stores nothing, and STATUS.SYN_NZ, SYN_OVR and HAM_RDY are
combinational (R27 to R29): none of these stands here. -/
structure Regs where
  /-- R22: the last accepted command word. -/
  cmd : Word
  /-- R23, R49: STATUS.BUSY. -/
  phase : Phase
  /-- R24. -/
  done : Bool
  /-- R25. -/
  err : Bool
  /-- R26. -/
  cmdOvr : Bool
  /-- R30. -/
  errcode : BitVec 8
  /-- R32, bit 0 of IRQ_EN. -/
  doneIe : Bool
  /-- R32, bit 1 of IRQ_EN. -/
  errIe : Bool
  /-- R34. -/
  srcAddr : Word
  /-- R35. -/
  srcLen : Word
  /-- R36. -/
  dstAddr : Word
  /-- R37. -/
  dstCap : Word
  /-- R38. -/
  outLen : Word
  /-- R39, field K of HAM_K. -/
  hamK : BitVec 16
  /-- R40, field R of HAM_GEOM. -/
  hamR : BitVec 8
  /-- R40, field N of HAM_GEOM. -/
  hamN : BitVec 16
  /-- R41. -/
  hamBitoff : Word
  /-- R42, field S of SYNDROME. -/
  syndrome : BitVec 16
  /-- R43. -/
  noiseLevel : Word
  /-- R44. -/
  noiseSeed : Word
  /-- R45. -/
  flipCount : Word
  /-- R46, field PAD of HUF_INFO. -/
  hufPad : BitVec 8
  /-- R46, field NODES of HUF_INFO. -/
  hufNodes : BitVec 16
  deriving DecidableEq, Repr

/-- R53: every register after a reset. -/
def Regs.reset : Regs where
  cmd := 0#32
  phase := .idle
  done := false
  err := false
  cmdOvr := false
  errcode := 0#8
  doneIe := false
  errIe := false
  srcAddr := 0#32
  srcLen := 0#32
  dstAddr := 0#32
  dstCap := 0#32
  outLen := 0#32
  hamK := 0#16
  hamR := 0#8
  hamN := 0#16
  hamBitoff := 0#32
  syndrome := 0#16
  noiseLevel := 0#32
  noiseSeed := 0#32
  flipCount := 0#32
  hufPad := 0#8
  hufNodes := 0#16

/-! ## Hidden state of the engine (R49 to R51) -/

/-- R49: the copies taken at acceptance. They stand until the next acceptance or reset: DESIGN CHOICE [log 26]. -/
structure Latched where
  cmd : Word
  srcAddr : Word
  srcLen : Word
  dstAddr : Word
  dstCap : Word
  hamBitoff : Word
  noiseLevel : Word
  noiseSeed : Word
  deriving DecidableEq, Repr

/-- DESIGN CHOICE [log 6]: R53 calls the latched copies unspecified after a reset. -/
def Latched.reset : Latched := ⟨0#32, 0#32, 0#32, 0#32, 0#32, 0#32, 0#32, 0#32⟩

/-- R50: one entry of the node arena. `unset` is an entry that is allocated and not parsed yet. -/
inductive HufNode
  | unset
  | internal (left right : Nat)
  | leaf (val : Byte)
  deriving DecidableEq, Repr

/-- R50: the Huffman working state. The allocation count `nodes` is the arena's length: entries that are not allocated are not
written down, since nothing reads them. -/
structure HufWork where
  arena : List HufNode
  cur : Nat
  out : Nat
  deriving DecidableEq, Repr

/-- R51: the run-length working state. -/
structure RleWork where
  pos : Nat
  out : Nat
  deriving DecidableEq, Repr

/-- R51: the injector's working state: the generator as created from its seed, and the set S (the source's NoiseMap). -/
structure NoiseWork where
  prng : Word
  selected : List Nat
  deriving DecidableEq, Repr

/-- R50, R51: the call-scoped working state of the units. Each command makes what it reads anew (R53), and the completion leaves
its last values here, where nothing reads them. DESIGN CHOICE [log 7] -/
structure Scratch where
  huf : HufWork
  rle : RleWork
  noise : NoiseWork
  deriving DecidableEq, Repr

/-- DESIGN CHOICE [log 6]: R53 calls the working state unspecified after a reset. -/
def Scratch.reset : Scratch := ⟨⟨[], 0, 0⟩, ⟨0, 0⟩, ⟨0#32, []⟩⟩

/-! ## Data memory (R55) -/

/-- Data memory: pairs of address and byte, in the canonical form `Memory.wf` (Machine/Ops.lean). -/
abbrev Memory := List Host.Cell

/-! ## The platform (R5) -/

/-- A range of addresses: its first address and its length in bytes. -/
structure AddrRange where
  base : Nat
  len : Nat
  deriving DecidableEq, Repr

/-- The platform's parameters, held as data so that a statement over all states holds for all of them. [log 4] -/
structure Platform where
  /-- AW, the data-memory address width, 8 to 32 (R5). -/
  aw : Nat
  /-- REG_BASE, where the register window lies (R5). -/
  regBase : Nat
  /-- Admit (R62), by its complement: the ranges whose bytes the engine cannot access. -/
  refused : List AddrRange
  deriving DecidableEq, Repr

/-! ## What the outside world does (R10, R75, R202) -/

/-- One action of the host, the platform or the engine. Each is one whole step, and a list of them is one interleaving. -/
inductive Input
  /-- The engine's turn: the accepted command completes (R104); an idle engine does nothing. -/
  | engine
  /-- A host read of `bytes` bytes at host address `addr` (R58, R111). -/
  | regRead (addr bytes : Nat)
  /-- A host write of `bytes` bytes at host address `addr` (R58, R112). -/
  | regWrite (addr bytes : Nat) (v : Word)
  /-- A host read of one byte of data memory (R55, R70). -/
  | memRead (addr : Nat)
  /-- A host write of one byte of data memory (R55, R70). -/
  | memWrite (addr : Nat) (v : Byte)
  /-- The host samples the interrupt line (R198, R203). -/
  | sampleIrq
  /-- The platform asserts the reset input (R220). -/
  | assertReset
  /-- The platform releases the reset input (R220). -/
  | releaseReset
  /-- The platform changes which addresses are admitted (R62). -/
  | setAdmit (refused : List AddrRange)
  /-- Clock or power gating ends, with the block's state kept or lost (R212). -/
  | ungate (kept : Bool)
  deriving DecidableEq, Repr

/-- The windows of a command that a host must leave alone (R70); a window the command does not use has length 0. -/
structure Guard where
  src : AddrRange
  dst : AddrRange
  deriving DecidableEq, Repr

/-! ## Why a step stops -/

/-- The faults the spec asks a model to mark, and one of the address space. No command raises any of them: a command that
cannot complete normally completes with an error, which is a next state (R195). -/
inductive Fault
  /-- HOST_WINDOW_RACE (R70, R228): raised by a host's data access inside the windows of a command. Safe: the spec gives no result. -/
  | hostWindowRace
  /-- PLATFORM_ADMIT_CHANGED (R62): raised by a change of `Admit` while a command is in progress. Safe: the spec gives no result. -/
  | platformAdmitChanged
  /-- Raised by a host's data access at an address outside 0 .. 2^AW - 1 (R55). Safe: no such byte exists. [log 15] -/
  | noSuchAddress
  deriving DecidableEq, Repr

/-- The steps the model has no meaning for. -/
inductive Refusal
  /-- Raised by exec's arm of an instruction that has no meaning yet. Safe. -/
  | notModelled (mnemonic : String)
  /-- Raised by a register access that is not 32 bits wide at a multiple of 4 (R58: "A model refuses such an access"). Safe. -/
  | accessShape
  /-- Raised by a register access while reset is asserted (R220: "the model refuses it"). Safe. -/
  | accessInReset
  /-- Raised by a register access at a host address outside the register window: it is not the block's. Safe. [log 14] -/
  | outsideWindow
  deriving DecidableEq, Repr

/-! ## The whole state -/

/-- The block, the data memory it reaches, and what the outside world does to both. -/
structure State where
  /-- The registers of the window (R20). -/
  regs : Regs
  /-- The engine's latched copies (R49). -/
  latched : Latched
  /-- The units' working state (R50, R51). -/
  scratch : Scratch
  /-- Data memory (R55). -/
  mem : Memory
  /-- The reset input is asserted (R220). -/
  resetAsserted : Bool
  /-- AW, REG_BASE and Admit (R5). -/
  platform : Platform
  /-- The model's own: the actions still to come, the next one first. [log 1] -/
  inputs : List Input
  /-- The model's own: the windows of the accepted commands whose completion no host has seen (R70). [log 11] -/
  guards : List Guard
  /-- The model's own: what the last register read, data read or irq sample returned to the host. [log 16] -/
  hostData : Word
  /-- The model's own: how many free values have been drawn; the next one is fresh. [log 8] -/
  draws : Nat
  deriving DecidableEq, Repr

/-- The machine right after reset: every register as R53 says, nothing listed in memory [log 5], the platform at the reference
value of AW [log 4], and no action to come [log 19]. -/
def State.reset : State where
  regs := Regs.reset
  latched := Latched.reset
  scratch := Scratch.reset
  mem := []
  resetAsserted := false
  platform := ⟨32, 0, []⟩
  inputs := []
  guards := []
  hostData := 0#32
  draws := 0

/-- What a step answers. -/
abbrev Outcome := Host.Outcome State Fault Refusal

end Sys2Proof.Machine
end

