-- ==== Sys2Proof/Machine/Operands.lean ====
section
/-! DEFINITION. The operand forms: the windows (R59), which command uses which (R103), and the addresses the platform admits (R62). -/
namespace Sys2Proof.Machine

/-- R103, column "source window". -/
def usesSrc : Instr → Bool
  | .nop => false
  | .hufDec => true
  | .rleDec => true
  | .hamCfg _ => false
  | .hamSyn => true
  | .noiseInj _ => true

/-- R103, column "destination window". -/
def usesDst : Instr → Bool
  | .nop => false
  | .hufDec => true
  | .rleDec => true
  | .hamCfg _ => false
  | .hamSyn => false
  | .noiseInj _ => true

/-- R59: an address lies in a range; a range of length 0 contains none. -/
def AddrRange.contains (r : AddrRange) (a : Nat) : Bool := r.base ≤ a && a < r.base + r.len

/-- R107: two ranges share an address. -/
def AddrRange.meets (r q : AddrRange) : Bool :=
  r.len > 0 && q.len > 0 && r.base < q.base + q.len && q.base < r.base + r.len

/-- R59: the source window of the latched copies. -/
def Latched.src (l : Latched) : AddrRange := ⟨l.srcAddr.toNat, l.srcLen.toNat⟩

/-- R59: the destination window of the latched copies. -/
def Latched.dst (l : Latched) : AddrRange := ⟨l.dstAddr.toNat, l.dstCap.toNat⟩

/-- R107: NOISE.INJ may run in place. -/
def mayRunInPlace : Instr → Bool
  | .nop => false
  | .hufDec => false
  | .rleDec => false
  | .hamCfg _ => false
  | .hamSyn => false
  | .noiseInj _ => true

/-- R107, R186: the command `i` is in place: its destination window starts at its source window's first byte. -/
def Latched.inPlace (l : Latched) (i : Instr) : Bool := mayRunInPlace i && l.dst.base == l.src.base

/-- R70: what a host must leave alone while the command `i` is in progress. -/
def Latched.guard (l : Latched) (i : Instr) : Guard where
  src := if usesSrc i then l.src else ⟨0, 0⟩
  dst := if usesDst i then l.dst else ⟨0, 0⟩

/-- R55: how many bytes data memory has. -/
def Platform.bytes (p : Platform) : Nat := 2 ^ p.aw

/-- R62: Admit(a). -/
def Platform.admits (p : Platform) (a : Nat) : Bool := p.refused.all fun r => !r.contains a

/-- R108: every address of a window is admitted (`admitsAll_iff` in Laws/Operands.lean). -/
def Platform.admitsAll (p : Platform) (w : AddrRange) : Bool := p.refused.all fun r => !r.meets w

/-- R34, R36, R112: an address register holds AW bits. -/
def Platform.address (p : Platform) (v : Word) : Word := v &&& BitVec.ofNat 32 (2 ^ p.aw - 1)

end Sys2Proof.Machine
end

