-- ==== Sys2Proof/Machine/Ops.lean ====
section
/-! DEFINITION. The named operations over memory and registers that the meanings share: data memory, acceptance and the dropped
write (R100 to R102), the completion of a command and its error entry (R104, R203), the host's acknowledgement (R204), and reset
(R220 to R223). -/
namespace Sys2Proof.Machine

/-! ## Data memory (R55) -/

/-- What an address that is not listed reads as. DESIGN CHOICE [log 5]: memory's content is the platform's (R53). -/
def Memory.unlisted : Byte := 0#8

/-- MemRead(a, 1) (R8). -/
def Memory.read : Memory → Nat → Byte
  | [], _ => Memory.unlisted
  | (k, v) :: m, a => if k = a then v else Memory.read m a

/-- MemWrite(a, 1, v) (R8), keeping the canonical form. -/
def Memory.write : Memory → Nat → Byte → Memory
  | [], a, v => if v = Memory.unlisted then [] else [(a, v)]
  | (k, w) :: m, a, v =>
    if a < k then (if v = Memory.unlisted then (k, w) :: m else (a, v) :: (k, w) :: m)
    else if a = k then (if v = Memory.unlisted then m else (a, v) :: m)
    else (k, w) :: Memory.write m a v

/-- The canonical form: addresses strictly rising, and no entry equal to what an unlisted address reads as. -/
abbrev Memory.wf (m : Memory) : Prop := m.Pairwise (fun c d => c.1 < d.1) ∧ ∀ c ∈ m, c.2 ≠ Memory.unlisted

/-- `n` bytes from `a` up. -/
def Memory.readBytes (m : Memory) (a : Nat) : Nat → List Byte
  | 0 => []
  | n + 1 => m.read a :: Memory.readBytes m (a + 1) n

/-- The given bytes to `a` and up. -/
def Memory.writeBytes (m : Memory) (a : Nat) : List Byte → Memory
  | [] => m
  | v :: vs => Memory.writeBytes (m.write a v) (a + 1) vs

/-- R8: Src, the bytes of the latched source window. No host wrote them since acceptance (R70), so they are the bytes as at
acceptance (R65). -/
def State.srcBytes (s : State) : List Byte := s.mem.readBytes s.latched.src.base s.latched.src.len

/-- R8: Dst[0..] takes the given bytes. -/
def State.writeDst (s : State) (bytes : List Byte) : State :=
  { s with mem := s.mem.writeBytes s.latched.dst.base bytes }

/-! ## Error codes (R196) -/

/-- The errors a command can complete with. -/
inductive ErrCode
  | illegalCmd | invalidInputLength | range | overlap | busError | badParam | hamUnconfigured | dstOverflow
  | hufBadHeader | hufTreeTruncated | hufTreeOverflow | hufDegenerateTree | hufPartialCode
  deriving DecidableEq, Repr

/-- R196, the column "code". -/
def ErrCode.code : ErrCode → BitVec 8
  | .illegalCmd => 0x01#8
  | .invalidInputLength => 0x02#8
  | .range => 0x03#8
  | .overlap => 0x04#8
  | .busError => 0x05#8
  | .badParam => 0x06#8
  | .hamUnconfigured => 0x07#8
  | .dstOverflow => 0x08#8
  | .hufBadHeader => 0x10#8
  | .hufTreeTruncated => 0x11#8
  | .hufTreeOverflow => 0x12#8
  | .hufDegenerateTree => 0x13#8
  | .hufPartialCode => 0x14#8

/-! ## Issue and acceptance (R100 to R102) -/

/-- R101: the operand registers as the command will see them. -/
def Regs.latch (r : Regs) (w : Word) : Latched where
  cmd := w
  srcAddr := r.srcAddr
  srcLen := r.srcLen
  dstAddr := r.dstAddr
  dstCap := r.dstCap
  hamBitoff := r.hamBitoff
  noiseLevel := r.noiseLevel
  noiseSeed := r.noiseSeed

/-- R101: the registers at acceptance. -/
def Regs.accept (r : Regs) (w : Word) : Regs :=
  { r with cmd := w, done := false, err := false, errcode := 0#8, phase := .busy }

/-- R70: the windows of the command in a word; an illegal word uses none (R82). -/
def Latched.guards (l : Latched) : List Guard :=
  match decode l.cmd with
  | .ok i => [l.guard i]
  | .error _ => []

/-- R101: the write of `w` to CMD is accepted, as one register update; from here on the hosts owe the duties of R70. -/
def State.accept (s : State) (w : Word) : State :=
  { s with
    regs := s.regs.accept w
    latched := s.regs.latch w
    guards := s.guards ++ (s.regs.latch w).guards }

/-- R102: the write is dropped; its one effect is CMD_OVR. -/
def State.dropCmd (s : State) : State := { s with regs := { s.regs with cmdOvr := true } }

/-- R100: a host write to CMD. -/
def State.issue (s : State) (w : Word) : State :=
  match s.regs.phase with
  | .idle => s.accept w
  | .busy => s.dropCmd

/-! ## Completion (R104), the error entry (R203) and the return (R204) -/

/-- R104 with outcome Done. The latched copies keep the finished command's values: DESIGN CHOICE [log 26]. -/
def State.completeDone (s : State) : State := { s with regs := { s.regs with phase := .idle, done := true } }

/-- R104 with outcome Error(e), the block's only analogue of taking an exception (R203): nothing is saved, BUSY falls, ERR and
ERRCODE tell the host. The latched copies keep the failed command's values: DESIGN CHOICE [log 26]. -/
def State.completeError (s : State) (e : ErrCode) : State :=
  { s with regs := { s.regs with phase := .idle, err := true, errcode := e.code } }

/-- R104: the completion with the outcome an operation's rule gives. -/
def State.complete (s : State) (error : Option ErrCode) : State :=
  match error with
  | none => s.completeDone
  | some e => s.completeError e

/-- R31, R204: the host's write to STATUS clears those of DONE, ERR and CMD_OVR whose written bit is 1. -/
def Regs.clearStatus (r : Regs) (w : Word) : Regs :=
  { r with
    done := r.done && !w.getLsbD 1
    err := r.err && !w.getLsbD 2
    cmdOvr := r.cmdOvr && !w.getLsbD 3 }

/-! ## Reset (R220 to R223) -/

/-- R223, I8: whether an abandoned command leaves the byte at `a` any value. A NOISE.INJ in place leaves all of both windows
open, also the source bytes past a shorter destination window; any other command leaves its destination window open, but for
bytes that are in its source window. [log 10] -/
def Latched.leavesOpen (l : Latched) (i : Instr) (a : Nat) : Bool :=
  if l.inPlace i then l.src.contains a || l.dst.contains a
  else usesDst i && l.dst.contains a && !l.src.contains a

/-- R223 (free): bytes of any value at those of `n` addresses from `a` up that the abandoned command leaves open and that
exist. -/
def Memory.scramble (m : Memory) (opens : Nat → Bool) (draw a : Nat) : Nat → Memory
  | 0 => m
  | n + 1 =>
    Memory.scramble (if opens a then m.write a (Config.freeByte draw a) else m) opens draw (a + 1) n

/-- R223: the command in progress, if any, is abandoned without a completion. Windows in place start at one address, so the
longer length reaches every byte that is left open. -/
def State.abandon (s : State) : State :=
  match s.regs.phase, decode s.latched.cmd with
  | .busy, .ok i =>
    { s with
      mem := s.mem.scramble (fun a => s.latched.leavesOpen i a && decide (a < s.platform.bytes)) s.draws
        s.latched.dst.base (max s.latched.dst.len s.latched.src.len)
      draws := s.draws + 1 }
  | _, _ => s

/-- R220, R222: every piece of the block's state takes its value of R53; data memory is not touched, but for the window of a
command that this abandons (R223). The hosts owe no more duties to it. -/
def State.resetBlock (s : State) : State :=
  { s.abandon with
    regs := Regs.reset
    latched := Latched.reset
    scratch := Scratch.reset
    guards := [] }

end Sys2Proof.Machine
end

