-- ==== Sys2Proof/Machine/Checks.lean ====
section
/-! DEFINITION. The start checks common to all commands (R105 to R109). Step 1, the encoding, is the decoder's (R82): it
comes before there is an instruction. -/
namespace Sys2Proof.Machine

/-- The error of a check that fails. -/
def failsWith (fails : Bool) (e : ErrCode) : Option ErrCode := if fails then some e else none

/-- R105 step 2. -/
def paramCheck (i : Instr) (s : State) : Option ErrCode :=
  match i with
  | .nop => none
  | .hufDec => none
  | .rleDec => none
  | .hamCfg k => failsWith (k == 0 || k > Config.hamKMax) .badParam
  | .hamSyn => failsWith (s.regs.hamK == 0#16) .hamUnconfigured
  | .noiseInj _ => failsWith (s.latched.noiseLevel.toNat > Config.levelMax) .badParam

/-- R106: a window is too long or passes the top of the data address space; the sum is exact. -/
def outOfRange (p : Platform) (w : AddrRange) : Bool := w.len > Config.lenMax || w.base + w.len > p.bytes

/-- R106: RangeCheck. -/
def rangeCheck (i : Instr) (s : State) : Option ErrCode :=
  failsWith ((usesSrc i && outOfRange s.platform s.latched.src) || (usesDst i && outOfRange s.platform s.latched.dst)) .range

/-- R107: OverlapCheck. -/
def overlapCheck (i : Instr) (s : State) : Option ErrCode :=
  failsWith (usesSrc i && usesDst i && s.latched.src.meets s.latched.dst
    && !s.latched.inPlace i) .overlap

/-- R108: AdmitCheck. -/
def admitCheck (i : Instr) (s : State) : Option ErrCode :=
  failsWith ((usesSrc i && !s.platform.admitsAll s.latched.src) || (usesDst i && !s.platform.admitsAll s.latched.dst)) .busError

/-- R105 step 6. -/
def lengthCheck (i : Instr) (s : State) : Option ErrCode :=
  match i with
  | .nop => none
  | .hufDec => none
  | .rleDec => none
  | .hamCfg _ => none
  | .hamSyn => failsWith (s.latched.hamBitoff.toNat + s.regs.hamN.toNat > 8 * s.latched.src.len) .invalidInputLength
  | .noiseInj _ => failsWith (s.latched.dst.len < s.latched.src.len) .dstOverflow

/-- R105: the checks in their order; the first that fails decides. -/
def startChecks (i : Instr) (s : State) : Option ErrCode :=
  (paramCheck i s).or ((rangeCheck i s).or ((overlapCheck i s).or ((admitCheck i s).or (lengthCheck i s))))

/-- R104, R105, R109: a command completes with the error of a start check that fails, and nothing else changes; else it runs. -/
def State.runChecked (s : State) (i : Instr) (run : State → State) : Outcome :=
  match startChecks i s with
  | some e => .next (s.completeError e)
  | none => .next (run s)

end Sys2Proof.Machine
end

