-- ==== Sys2Proof/Machine/Control.lean ====
section
/-! DEFINITION. The control family: NOP (R110). -/
namespace Sys2Proof.Machine

/-- R110: "StartChecks(); finish". -/
def execNop (s : State) : Outcome := s.runChecked .nop State.completeDone

end Sys2Proof.Machine
end

