-- ==== Sys2Proof/Machine/Bits.lean ====
section
/-! DEFINITION. The bit order of data (R7, R57): bits are taken MSB first within a byte. -/
namespace Sys2Proof.Machine

/-- R7: StreamBit(B, t), bit `7 - (t mod 8)` of byte `t div 8`. -/
def streamBit (B : List Byte) (t : Nat) : Bool := (B.getD (t / 8) 0#8).getLsbD (7 - t % 8)

/-- The eight bits of a byte in stream order (R7). -/
def bitsOfByte (b : Byte) : List Bool := (List.range 8).map fun j => b.getLsbD (7 - j)

/-- All stream bits of a byte sequence, in order (R7). -/
def streamBits (B : List Byte) : List Bool := B.flatMap bitsOfByte

/-- R7: a group of bits read as a number, the first bit read in the most significant position. -/
def bitsToNat (bits : List Bool) : Nat := bits.foldl (fun v b => 2 * v + b.toNat) 0

/-- The byte whose bits in stream order are the given ones (R7). -/
def byteOfBits (bits : List Bool) : Byte := BitVec.ofNat 8 (bitsToNat bits)

end Sys2Proof.Machine
end

