-- ==== Sys2Proof/Machine/Hamming.lean ====
section
/-! DEFINITION. The Hamming syndrome calculator: HAM.CFG (R120, R121) and HAM.SYN (R123). -/
namespace Sys2Proof.Machine

/-- The first `r` from the one given on, within a bound on the search, with `2^r >= k + r + 1`. -/
def parityBitsFrom (k : Nat) : Nat → Nat → Nat
  | 0, r => r
  | n + 1, r => if 2 ^ r ≥ k + r + 1 then r else parityBitsFrom k n (r + 1)

/-- R121: "the smallest integer satisfying 2^r >= codeWordLength + r + 1", from 1 on; `k + 1` satisfies it, so the search ends. -/
def parityBits (k : Nat) : Nat := parityBitsFrom k (k + 1) 1

/-- R47, R122: the ParityMatrix, whose coefficient in row `j` and column `i` is bit `j` of `i`. -/
def parityMatrix (j i : Nat) : Bool := i.testBit j

/-- R123: the XOR of the block positions, 1 to `n`, whose bit is 1; position `i` is stream bit `off + i - 1` (R93). -/
def syndromeOf (src : List Byte) (off n : Nat) : Nat :=
  (List.range n).foldl (fun s t => if streamBit src (off + t) then s ^^^ (t + 1) else s) 0

/-- R120: the new geometry, with the syndrome cleared. -/
def State.finishCfg (s : State) (k : Nat) : State :=
  { s with
    regs := { s.regs with
      hamK := BitVec.ofNat 16 k
      hamR := BitVec.ofNat 8 (parityBits k)
      hamN := BitVec.ofNat 16 (k + parityBits k)
      syndrome := 0#16 } }.completeDone

/-- R120: HAM.CFG k. -/
def execHamCfg (k : Nat) (s : State) : Outcome := s.runChecked (.hamCfg k) fun s => s.finishCfg k

/-- R123: the new syndrome. -/
def State.finishSyn (s : State) (syn : Nat) : State :=
  { s with regs := { s.regs with syndrome := BitVec.ofNat 16 syn } }.completeDone

/-- R123: HAM.SYN. -/
def execHamSyn (s : State) : Outcome :=
  s.runChecked .hamSyn fun s => s.finishSyn (syndromeOf s.srcBytes s.latched.hamBitoff.toNat s.regs.hamN.toNat)

end Sys2Proof.Machine
end

