-- ==== Sys2Proof/Machine/Huffman.lean ====
section
/-! DEFINITION. The Huffman decoder: HUF.DEC (R140 to R151). The bits the unit still has to read are a list, so that `cur >= E`
is the empty list; the arena's length is the allocation count `nodes`. -/
namespace Sys2Proof.Machine

/-- What the parse of the tree section ends with: the arena and the bits it did not read. -/
structure HufParse where
  error : Option ErrCode
  arena : List HufNode
  rest : List Bool
  deriving DecidableEq, Repr

/-- R144, R145: Parse, with the pending nodes on an explicit stack (the left child is on top). A `1` allocates two children; a
`0` is followed by the eight bits of the leaf's byte, MSB first. -/
def hufParse : List Bool → List Nat → List HufNode → HufParse
  | bits, [], arena => ⟨none, arena, bits⟩
  | true :: bits, x :: stack, arena =>
    if arena.length + 2 > Config.nodeMax then ⟨some .hufTreeOverflow, arena, bits⟩
    else hufParse bits (arena.length :: (arena.length + 1) :: stack)
      (arena.set x (.internal arena.length (arena.length + 1)) ++ [.unset, .unset])
  | false :: b7 :: b6 :: b5 :: b4 :: b3 :: b2 :: b1 :: b0 :: bits, x :: stack, arena =>
    hufParse bits stack (arena.set x (.leaf (byteOfBits [b7, b6, b5, b4, b3, b2, b1, b0])))
  | _, _ :: _, arena => ⟨some .hufTreeTruncated, arena, []⟩

/-- What the walk ends with: the bytes written, in order, and the bits it did not read. -/
structure HufWalk where
  error : Option ErrCode
  out : List Byte
  rest : List Bool
  deriving DecidableEq, Repr

/-- R147: the child that a code bit leads to. -/
def HufNode.child (n : HufNode) (b : Bool) : Nat :=
  match n with
  | .internal l r => if b then r else l
  | .leaf _ => 0
  | .unset => 0

/-- R147 to R149: the walk from node `x`, with room for `room` more bytes. The root (node 0) is internal, and no node has it
for a child, so `x = 0` says that no bit of the current code has been read. -/
def hufWalk (arena : List HufNode) : Nat → Nat → List Bool → HufWalk
  | x, _, [] => if x = 0 then ⟨none, [], []⟩ else ⟨some .hufPartialCode, [], []⟩
  | x, room, b :: bits =>
    match arena.getD ((arena.getD x .unset).child b) .unset with
    | .leaf v =>
      match room with
      | 0 => ⟨some .dstOverflow, [], bits⟩
      | room + 1 =>
        let w := hufWalk arena 0 room bits
        { w with out := v :: w.out }
    | _ => hufWalk arena ((arena.getD x .unset).child b) room bits

/-- What HUF.DEC computes: the outcome, the bytes written, the padding count, and the working state it ends with. -/
structure HufRun where
  error : Option ErrCode
  out : List Byte
  pad : Nat
  work : HufWork
  deriving DecidableEq, Repr

/-- R140 from the tree section on, over the meaningful bits. -/
def hufBody (pad : Nat) (bits : List Bool) (cap : Nat) : HufRun :=
  let t := hufParse bits [0] [.unset]
  match t.error with
  | some e => ⟨some e, [], pad, ⟨t.arena, bits.length - t.rest.length, 0⟩⟩
  | none =>
    match t.arena.getD 0 .unset with
    | .internal _ _ =>
      let w := hufWalk t.arena 0 cap t.rest
      ⟨w.error, w.out, pad, ⟨t.arena, bits.length - w.rest.length, w.out.length⟩⟩
    | _ => ⟨some .hufDegenerateTree, [], pad, ⟨t.arena, bits.length - t.rest.length, 0⟩⟩

/-- R140 to R143: header, then tree and codes over the `E = T - p` meaningful bits. -/
def hufDecode (src : List Byte) (cap : Nat) : HufRun :=
  match src with
  | [] => ⟨none, [], 0, ⟨[], 0, 0⟩⟩
  | header :: body =>
    let pad := (header.toNat + 128) % 256
    if pad > 8 * body.length then ⟨some .hufBadHeader, [], pad, ⟨[], 0, 0⟩⟩
    else if 8 * body.length - pad = 0 then ⟨none, [], pad, ⟨[], 0, 0⟩⟩
    else hufBody pad ((streamBits body).take (8 * body.length - pad)) cap

/-- R140, "done" and "fail X": the destination bytes, OUT_LEN, HUF_INFO and the outcome. -/
def State.finishHuf (s : State) (run : HufRun) : State :=
  { s.writeDst run.out with
    regs := { s.regs with
      outLen := BitVec.ofNat 32 run.out.length
      hufPad := BitVec.ofNat 8 run.pad
      hufNodes := BitVec.ofNat 16 run.work.arena.length }
    scratch := { s.scratch with huf := run.work } }.complete run.error

/-- R140: HUF.DEC. -/
def execHufDec (s : State) : Outcome :=
  s.runChecked .hufDec fun s => s.finishHuf (hufDecode s.srcBytes s.latched.dst.len)

end Sys2Proof.Machine
end

