-- ==== Sys2Proof/Machine/Noise.lean ====
section
/-! DEFINITION. The bit-flip injector: NOISE.INJ (R180 to R187). -/
namespace Sys2Proof.Machine

/-- From position `t` on, with `left` positions left and `need` of them still to select: a position is selected when `pick` says
so, or when every position that is left is needed. So the number selected is exactly `need` (if `left` is enough). -/
def selectFrom (pick : Nat → Bool) : Nat → Nat → Nat → List Nat
  | 0, _, _ => []
  | left + 1, t, need =>
    if need = 0 then []
    else if need ≥ left + 1 || pick t then t :: selectFrom pick left (t + 1) (need - 1)
    else selectFrom pick left (t + 1) need

/-- R183: NoiseSelect(seed, N, count), as a strictly rising list of positions. It is a function of exactly these three, and
nothing but the properties of R183 can be proved of it. [log 9] -/
def noiseSelect (seed : Word) (N count : Nat) : List Nat := selectFrom (Config.noisePick seed N count) N 0 count

/-- R181: floor(8L * v / 6553600), exactly. -/
def noiseCount (len level : Nat) : Nat := 8 * len * level / Config.levelDivisor

/-- R184: the byte whose bit `7 - j` is 1 exactly when position `8 i + j` is selected. -/
def flipMask (S : List Nat) (i : Nat) : Byte := byteOfBits ((List.range 8).map fun j => decide (8 * i + j ∈ S))

/-- R184: the bytes from index `i` on, each with its selected bits flipped. -/
def flipBytes (S : List Nat) : Nat → List Byte → List Byte
  | _, [] => []
  | i, b :: bs => (b ^^^ flipMask S i) :: flipBytes S (i + 1) bs

/-- R185: the seed of the command; ENT = 1 takes a fresh entropy draw (free). -/
def State.noiseSeed (s : State) (ent : Bool) : Word :=
  if ent then Config.entropyDraw s.draws else s.latched.noiseSeed

/-- R180 after its start checks; with ENT = 1 one free value has been drawn. -/
def State.finishNoise (s : State) (ent : Bool) : State :=
  let src := s.srcBytes
  let count := noiseCount s.latched.src.len s.latched.noiseLevel.toNat
  let selected := noiseSelect (s.noiseSeed ent) (8 * s.latched.src.len) count
  { s.writeDst (flipBytes selected 0 src) with
    regs := { s.regs with
      flipCount := BitVec.ofNat 32 count
      outLen := BitVec.ofNat 32 s.latched.src.len }
    scratch := { s.scratch with noise := ⟨s.noiseSeed ent, selected⟩ }
    draws := if ent then s.draws + 1 else s.draws }.completeDone

/-- R180: NOISE.INJ, and NOISE.INJ ent. -/
def execNoiseInj (ent : Bool) (s : State) : Outcome := s.runChecked (.noiseInj ent) fun s => s.finishNoise ent

end Sys2Proof.Machine
end

