-- ==== Sys2Proof/Machine/Rle.lean ====
section
/-! DEFINITION. The run-length decoder: RLE.DEC (R165 to R171). -/
namespace Sys2Proof.Machine

/-- A record read from a stream: the bytes it stands for, its length in the stream, and what follows it. -/
structure RleRecord where
  bytes : List Byte
  len : Nat
  rest : List Byte
  deriving DecidableEq, Repr

/-- R166 to R169: the record that starts with count byte `b` before `bs`, or none when it is truncated. The count byte is read
as a signed byte. -/
def rleRecord (b : Byte) (bs : List Byte) : Option RleRecord :=
  let c := b.toInt
  if c > 0 then
    if c.toNat > bs.length then none else some ⟨bs.take c.toNat, 1 + c.toNat, bs.drop c.toNat⟩
  else
    match bs with
    | [] => none
    | v :: rest => some ⟨List.replicate (c + 128).toNat v, 2, rest⟩

/-- What RLE.DEC computes: the outcome, the bytes written, and the cursor it ends with. -/
structure RleRun where
  error : Option ErrCode
  out : List Byte
  pos : Nat
  deriving DecidableEq, Repr

/-- R165: the loop over the records, with the cursor at `pos` and room for `room` more bytes. The first argument bounds the number
of records; `rleDecode` gives the stream's length, and a record is never empty, so the bound is never met. -/
def rleLoop : Nat → Nat → Nat → List Byte → RleRun
  | 0, pos, _, _ => ⟨none, [], pos⟩
  | _ + 1, pos, _, [] => ⟨none, [], pos⟩
  | n + 1, pos, room, b :: bs =>
    match rleRecord b bs with
    | none => ⟨some .invalidInputLength, [], pos⟩
    | some r =>
      if r.bytes.length > room then ⟨some .dstOverflow, r.bytes.take room, pos⟩
      else
        let q := rleLoop n (pos + r.len) (room - r.bytes.length) r.rest
        { q with out := r.bytes ++ q.out }

/-- R165: run-length decompress. -/
def rleDecode (src : List Byte) (cap : Nat) : RleRun := rleLoop src.length 0 cap src

/-- R165, "finish" and "fail X": the destination bytes, OUT_LEN and the outcome. -/
def State.finishRle (s : State) (run : RleRun) : State :=
  { s.writeDst run.out with
    regs := { s.regs with outLen := BitVec.ofNat 32 run.out.length }
    scratch := { s.scratch with rle := ⟨run.pos, run.out.length⟩ } }.complete run.error

/-- R165: RLE.DEC. -/
def execRleDec (s : State) : Outcome :=
  s.runChecked .rleDec fun s => s.finishRle (rleDecode s.srcBytes s.latched.dst.len)

end Sys2Proof.Machine
end

