-- ==== Sys2Proof/Machine/Dispatch.lean ====
section
/-! DEFINITION. The completion of a command, one arm for each instruction (R104). -/
namespace Sys2Proof.Machine

def exec (i : Instr) (s : State) : Host.Outcome State Fault Refusal :=
  match i with
  | .nop => Sys2Proof.Machine.execNop s
  | .hufDec => Sys2Proof.Machine.execHufDec s
  | .rleDec => Sys2Proof.Machine.execRleDec s
  | .hamCfg k => Sys2Proof.Machine.execHamCfg k s
  | .hamSyn => Sys2Proof.Machine.execHamSyn s
  | .noiseInj ent => Sys2Proof.Machine.execNoiseInj ent s

end Sys2Proof.Machine
end

