-- ==== Sys2Proof/Machine/Engine.lean ====
section
/-! DEFINITION. The engine's turn (R104): the accepted command completes. -/
namespace Sys2Proof.Machine

/-- R104, R105 step 1, R212: a BUSY engine decodes its latched command word and completes the command, with ILLEGAL_CMD when the
word matches no row (R82); an idle engine does nothing. -/
def engineTurn (s : State) : Outcome :=
  match s.regs.phase with
  | .idle => .next s
  | .busy =>
    match decode s.latched.cmd with
    | .ok i => exec i s
    | .error _ => .next (s.completeError .illegalCmd)

end Sys2Proof.Machine
end

