-- ==== Sys2Proof/Machine/Flags.lean ====
section
/-! DEFINITION. The computed bits: STATUS (R23 to R31) and the interrupt line (R52, R198). -/
namespace Sys2Proof.Machine

/-- R23: STATUS.BUSY. -/
def Regs.busy (r : Regs) : Bool := r.phase == .busy

/-- R27: STATUS.SYN_NZ. -/
def Regs.synNz (r : Regs) : Bool := r.syndrome != 0#16

/-- R28: STATUS.SYN_OVR, SYNDROME.S > HAM_GEOM.N. -/
def Regs.synOvr (r : Regs) : Bool := r.hamN.toNat < r.syndrome.toNat

/-- R29: STATUS.HAM_RDY. -/
def Regs.hamRdy (r : Regs) : Bool := r.hamK != 0#16

/-- One bit in its place in a register word. -/
def bitAt (b : Bool) (i : Nat) : Word := BitVec.ofNat 32 b.toNat <<< i

/-- STATUS as a host reads it (R23 to R31): bits 7 and [31:16] read 0. -/
def Regs.status (r : Regs) : Word :=
  bitAt r.busy 0 ||| bitAt r.done 1 ||| bitAt r.err 2 ||| bitAt r.cmdOvr 3 ||| bitAt r.synNz 4 ||| bitAt r.synOvr 5
    ||| bitAt r.hamRdy 6 ||| (r.errcode.setWidth 32 <<< 8)

/-- IRQ_EN as a host reads it (R32). -/
def Regs.irqEn (r : Regs) : Word := bitAt r.doneIe 0 ||| bitAt r.errIe 1

/-- R52, R198: the interrupt output, level-sensitive and active high. -/
def Regs.irq (r : Regs) : Bool := (r.done && r.doneIe) || ((r.err || r.cmdOvr) && r.errIe)

/-- R52, R220: the interrupt line; a block whose reset is asserted drives 0. -/
def State.irq (s : State) : Bool := !s.resetAsserted && s.regs.irq

end Sys2Proof.Machine
end

