-- ==== Sys2Proof/Machine/HostAccess.lean ====
section
/-! DEFINITION. What the outside world does to the block and to data memory: register reads and writes (R58, R111, R112), data
accesses (R55, R70), the reset input (R220), Admit (R62), power gating (R212). -/
namespace Sys2Proof.Machine

/-! ## The register map (R20) -/

/-- R20: the offset of a register. -/
def Reg.offset : Reg → Nat
  | .id => 0x000
  | .cmd => 0x004
  | .status => 0x008
  | .irqEn => 0x00C
  | .ctrl => 0x010
  | .srcAddr => 0x014
  | .srcLen => 0x018
  | .dstAddr => 0x01C
  | .dstCap => 0x020
  | .outLen => 0x024
  | .hamK => 0x028
  | .hamGeom => 0x02C
  | .hamBitoff => 0x030
  | .syndrome => 0x034
  | .noiseLevel => 0x038
  | .noiseSeed => 0x03C
  | .flipCount => 0x040
  | .hufInfo => 0x044

/-- R20: every register of the map. -/
def Reg.all : List Reg :=
  [.id, .cmd, .status, .irqEn, .ctrl, .srcAddr, .srcLen, .dstAddr, .dstCap, .outLen, .hamK, .hamGeom, .hamBitoff, .syndrome,
    .noiseLevel, .noiseSeed, .flipCount, .hufInfo]

/-- R20: the register at an offset; none at a reserved one. -/
def Reg.ofOffset (o : Nat) : Option Reg := Reg.all.find? fun r => r.offset == o

/-! ## Register reads (R111) -/

/-- R21 to R46: what a register reads as; reserved bits read 0. -/
def Regs.read (r : Regs) : Reg → Word
  | .id => Config.idValue
  | .cmd => r.cmd
  | .status => r.status
  | .irqEn => r.irqEn
  | .ctrl => 0#32
  | .srcAddr => r.srcAddr
  | .srcLen => r.srcLen
  | .dstAddr => r.dstAddr
  | .dstCap => r.dstCap
  | .outLen => r.outLen
  | .hamK => r.hamK.setWidth 32
  | .hamGeom => r.hamR.setWidth 32 ||| (r.hamN.setWidth 32 <<< 16)
  | .hamBitoff => r.hamBitoff
  | .syndrome => r.syndrome.setWidth 32
  | .noiseLevel => r.noiseLevel
  | .noiseSeed => r.noiseSeed
  | .flipCount => r.flipCount
  | .hufInfo => r.hufPad.setWidth 32 ||| (r.hufNodes.setWidth 32 <<< 16)

/-- R111: a read at an offset; reserved offsets read 0. -/
def Regs.readAt (r : Regs) (o : Nat) : Word :=
  match Reg.ofOffset o with
  | some reg => r.read reg
  | none => 0#32

/-- R69, R229: a read of STATUS shows the host a completion: BUSY = 0 with DONE or ERR = 1. -/
def Regs.showsCompletion (r : Regs) : Bool := !r.busy && (r.done || r.err)

/-- R70: what the hosts must still leave alone after a register read: nothing, once the read has shown a completion. [log 11] -/
def State.guardsAfterRead (s : State) (o : Nat) : List Guard :=
  if o = Reg.status.offset ∧ s.regs.showsCompletion then [] else s.guards

/-! ## Register writes (R112) -/

/-- R112: the effect of a write of `v` on a register. -/
def State.writeReg (s : State) (reg : Reg) (v : Word) : State :=
  match reg with
  | .id => s
  | .cmd => s.issue v
  | .status => { s with regs := s.regs.clearStatus v }
  | .irqEn => { s with regs := { s.regs with doneIe := v.getLsbD 0, errIe := v.getLsbD 1 } }
  | .ctrl => if v.getLsbD 0 then s.resetBlock else s
  | .srcAddr => { s with regs := { s.regs with srcAddr := s.platform.address v } }
  | .srcLen => { s with regs := { s.regs with srcLen := v } }
  | .dstAddr => { s with regs := { s.regs with dstAddr := s.platform.address v } }
  | .dstCap => { s with regs := { s.regs with dstCap := v } }
  | .outLen => s
  | .hamK => s
  | .hamGeom => s
  | .hamBitoff => { s with regs := { s.regs with hamBitoff := v } }
  | .syndrome => s
  | .noiseLevel => { s with regs := { s.regs with noiseLevel := v } }
  | .noiseSeed => { s with regs := { s.regs with noiseSeed := v } }
  | .flipCount => s
  | .hufInfo => s

/-- R112: a write at an offset; at a reserved one it has no effect. -/
def State.writeAt (s : State) (o : Nat) (v : Word) : State :=
  match Reg.ofOffset o with
  | some reg => s.writeReg reg v
  | none => s

/-! ## A host access to the register window (R58) -/

/-- R58, R220: the offset a register access reaches, or why the model refuses the access. -/
def State.regOffset (s : State) (addr bytes : Nat) : Except Refusal Nat :=
  if addr < s.platform.regBase ∨ s.platform.regBase + Config.windowBytes ≤ addr then .error .outsideWindow
  else if s.resetAsserted then .error .accessInReset
  else if bytes ≠ 4 ∨ (addr - s.platform.regBase) % 4 ≠ 0 then .error .accessShape
  else .ok (addr - s.platform.regBase)

/-- R111: a host register read. It has no side effect on the block. -/
def hostRegRead (s : State) (addr bytes : Nat) : Outcome :=
  match s.regOffset addr bytes with
  | .error r => .refused r
  | .ok o => .next { s with hostData := s.regs.readAt o, guards := s.guardsAfterRead o }

/-- R112: a host register write. -/
def hostRegWrite (s : State) (addr bytes : Nat) (v : Word) : Outcome :=
  match s.regOffset addr bytes with
  | .error r => .refused r
  | .ok o => .next (s.writeAt o v)

/-- R198, R203, R204: the host samples the interrupt line. A line that DONE or ERR alone can have raised shows a completion; with
an enabled CMD_OVR pending the host must read STATUS to tell. [log 12] -/
def hostSampleIrq (s : State) : Outcome :=
  .next { s with
    hostData := bitAt s.irq 0
    guards := if s.irq && !(s.regs.cmdOvr && s.regs.errIe) && s.regs.showsCompletion then [] else s.guards }

/-! ## Host accesses to data memory (R55, R70) -/

/-- R70: a host read would race a command: it lies in a destination window. The bytes of an in-place NOISE.INJ's source that lie
past a shorter destination window may be read: DESIGN CHOICE [log 27]. -/
def State.readRaces (s : State) (a : Nat) : Bool := s.guards.any fun g => g.dst.contains a

/-- R70: a host write would race a command: it lies in one of its windows. -/
def State.writeRaces (s : State) (a : Nat) : Bool := s.guards.any fun g => g.src.contains a || g.dst.contains a

/-- R70: a host's data read. -/
def hostMemRead (s : State) (a : Nat) : Outcome :=
  if s.platform.bytes ≤ a then .fault .noSuchAddress
  else if s.readRaces a then .fault .hostWindowRace
  else .next { s with hostData := (s.mem.read a).setWidth 32 }

/-- R68, R70: a host's data write. -/
def hostMemWrite (s : State) (a : Nat) (v : Byte) : Outcome :=
  if s.platform.bytes ≤ a then .fault .noSuchAddress
  else if s.writeRaces a then .fault .hostWindowRace
  else .next { s with mem := s.mem.write a v }

/-! ## The platform (R62, R212, R220) -/

/-- R220: the platform asserts the reset input. -/
def platformAssertReset (s : State) : Outcome := .next { s.resetBlock with resetAsserted := true }

/-- R220: the platform releases the reset input. -/
def platformReleaseReset (s : State) : Outcome := .next { s with resetAsserted := false }

/-- R62: the platform changes what is admitted; during a command that is the fault PLATFORM_ADMIT_CHANGED. [log 13] -/
def platformSetAdmit (s : State) (refused : List AddrRange) : Outcome :=
  match s.regs.phase with
  | .busy =>
    if refused = s.platform.refused then .next s else .fault .platformAdmitChanged
  | .idle => .next { s with platform := { s.platform with refused := refused } }

/-- R212: gating ends; state that was not kept is the state after a hard reset. -/
def platformUngate (s : State) (kept : Bool) : Outcome := .next (if kept then s else s.resetBlock)

/-! ## One action -/

/-- R10, R75: one action of one agent. -/
def applyInput (e : Input) (s : State) : Outcome :=
  match e with
  | .engine => engineTurn s
  | .regRead addr bytes => hostRegRead s addr bytes
  | .regWrite addr bytes v => hostRegWrite s addr bytes v
  | .memRead a => hostMemRead s a
  | .memWrite a v => hostMemWrite s a v
  | .sampleIrq => hostSampleIrq s
  | .assertReset => platformAssertReset s
  | .releaseReset => platformReleaseReset s
  | .setAdmit refused => platformSetAdmit s refused
  | .ungate kept => platformUngate s kept

end Sys2Proof.Machine
end

