-- ==== Sys2Proof/Machine/Step.lean ====
section
/-! DEFINITION. One step of the machine: the next action in the list of inputs happens (R75, R202). -/
namespace Sys2Proof.Machine

/-- R75, R104, R202: the next action happens, whole. With no action to come a command in progress completes: "every accepted
command completes within finite time" (R104), and an idle block stays as it is (R212). [log 2] -/
def step (s : State) : Host.Outcome State Fault Refusal :=
  match s.inputs with
  | [] => engineTurn s
  | e :: rest => applyInput e { s with inputs := rest }

/-- The state in which the next step runs the instruction with the given bits: R101, the word has just been accepted, and the
engine's turn is next. Reset is released, and a command in progress gives way, since the block would drop the write (R102).
[log 19] -/
def State.withFetchWord (s : State) (nbits w : Nat) : State :=
  { s with
    resetAsserted := false
    inputs := .engine :: s.inputs }.accept (BitVec.ofNat 32 (w % 2 ^ nbits))

end Sys2Proof.Machine
end

