-- ==== Sys2Proof/Machine/Assembler.lean ====
section
/-! DEFINITION. The assembler's lines (R85): a mnemonic and its operands, each a list of characters. -/
namespace Sys2Proof.Machine

/-- The value of a digit in a base, either case. -/
def digitValue (base : Nat) (c : Char) : Option Nat :=
  let n := c.toNat
  let v := if 48 ≤ n ∧ n ≤ 57 then n - 48 else if 65 ≤ n ∧ n ≤ 70 then n - 55 else if 97 ≤ n ∧ n ≤ 102 then n - 87 else base
  if v < base then some v else none

/-- Digits, most significant first, after the value read so far. -/
def digitsValue (base : Nat) : Nat → List Char → Option Nat
  | acc, [] => some acc
  | acc, c :: cs =>
    match digitValue base c with
    | some d => digitsValue base (acc * base + d) cs
    | none => none

/-- R85: "a decimal or 0x-hexadecimal number". -/
def numeral : List Char → Option Nat
  | [] => none
  | '0' :: 'x' :: c :: cs => digitsValue 16 0 (c :: cs)
  | c :: cs => digitsValue 10 0 (c :: cs)

/-- R85: "A mnemonic is case-insensitive." -/
def upperCase (cs : List Char) : List Char := cs.map Char.toUpper

/-- R85: the command of a line, or none where the assembler refuses the line. [log 25] -/
def assemble (mnemonic : List Char) (operands : List (List Char)) : Option Instr :=
  if upperCase mnemonic = ['N', 'O', 'P'] then
    if operands = [] then some .nop else none
  else if upperCase mnemonic = ['H', 'U', 'F', '.', 'D', 'E', 'C'] then
    if operands = [] then some .hufDec else none
  else if upperCase mnemonic = ['R', 'L', 'E', '.', 'D', 'E', 'C'] then
    if operands = [] then some .rleDec else none
  else if upperCase mnemonic = ['H', 'A', 'M', '.', 'C', 'F', 'G'] then
    match operands with
    | [k] => (numeral k).bind fun n => if immFits n then some (.hamCfg n) else none
    | _ => none
  else if upperCase mnemonic = ['H', 'A', 'M', '.', 'S', 'Y', 'N'] then
    if operands = [] then some .hamSyn else none
  else if upperCase mnemonic = ['N', 'O', 'I', 'S', 'E', '.', 'I', 'N', 'J'] then
    if operands = [] then some (.noiseInj false)
    else if operands.map upperCase = [['E', 'N', 'T']] then some (.noiseInj true) else none
  else none

/-- R85: the word of a line. -/
def assembleWord (mnemonic : List Char) (operands : List (List Char)) : Option Word :=
  (assemble mnemonic operands).map encode

end Sys2Proof.Machine
end

