-- ==== Sys2Proof/Machine/Formats.lean ====
section
/-! DEFINITION. The data formats of the streams as their writers make them (R88 to R92), apart from the decoders: statements about
HUF.DEC and RLE.DEC are made in these terms. -/
namespace Sys2Proof.Machine

/-! ## Run-length records (R91) -/

/-- A record: literal bytes, or copies of one byte. -/
inductive RleItem
  | literal (bytes : List Byte)
  | copies (count : Nat) (v : Byte)
  deriving DecidableEq, Repr

/-- R91, R167, R168: the records that have a form: 1 to 127 literal bytes, or 0 to 128 copies. -/
def RleItem.legal : RleItem → Bool
  | .literal bytes => 1 ≤ bytes.length && bytes.length ≤ 127
  | .copies count _ => count ≤ 128

/-- R91: the record's bytes: the positive count and the literal bytes, or `count - 128` as a signed byte and the value. -/
def RleItem.stream : RleItem → List Byte
  | .literal bytes => BitVec.ofNat 8 bytes.length :: bytes
  | .copies count v => [BitVec.ofInt 8 ((count : Int) - 128), v]

/-- R91: what the record stands for. -/
def RleItem.expansion : RleItem → List Byte
  | .literal bytes => bytes
  | .copies count v => List.replicate count v

/-! ## Huffman streams (R88 to R90) -/

/-- R89: "every node has either 0 or 2 children". -/
inductive HufTree
  | leaf (v : Byte)
  | node (left right : HufTree)
  deriving DecidableEq, Repr

/-- R89: the tree serialised in pre-order. -/
def HufTree.bits : HufTree → List Bool
  | .leaf v => false :: bitsOfByte v
  | .node l r => true :: (l.bits ++ r.bits)

/-- The number of nodes. -/
def HufTree.nodes : HufTree → Nat
  | .leaf _ => 1
  | .node l r => 1 + l.nodes + r.nodes

/-- R89, R145: how many of the first `n` bits of a tree's serialisation are bits of internal nodes. Each of these allocates two
nodes when it is read. -/
def HufTree.internalBits : HufTree → Nat → Nat
  | .leaf _, _ => 0
  | .node _ _, 0 => 0
  | .node l r, n + 1 => 1 + l.internalBits n + r.internalBits (n - l.bits.length)

/-- R90: the byte whose code the bits are: the root has the empty path, the left child appends 0, the right child appends 1. -/
def HufTree.codeOf : HufTree → List Bool → Option Byte
  | .leaf v, [] => some v
  | .leaf _, _ :: _ => none
  | .node _ _, [] => none
  | .node l r, b :: code => if b then r.codeOf code else l.codeOf code

/-- R88: the header byte of a padding count. -/
def hufHeader (pad : Nat) : Byte := BitVec.ofNat 8 ((pad + 128) % 256)

end Sys2Proof.Machine
end

