-- ==== Sys2Proof/Machine/HostProgram.lean ====
section
/-! DEFINITION. Host statements and macros (R86, R87), as the inputs they stand for. They are no commands of the block. -/
namespace Sys2Proof.Machine

/-- R86: the statements a host program is written with. `wait polls` is WAIT when the command in progress completes after that many
reads of STATUS: how many is not fixed (R233). -/
inductive HostStmt
  | wr (reg : Reg) (v : Word)
  | rd (reg : Reg)
  | wait (polls : Nat)
  | mem (addr : Nat) (bytes : List Byte)
  | command (i : Instr)
  deriving DecidableEq, Repr

/-- The host address of a register (R20, R56). -/
def Platform.regAddr (p : Platform) (reg : Reg) : Nat := p.regBase + reg.offset

/-- R86: one 32-bit write of a register. -/
def Platform.wr (p : Platform) (reg : Reg) (v : Word) : Input := .regWrite (p.regAddr reg) 4 v

/-- R86: one 32-bit read of a register. -/
def Platform.rd (p : Platform) (reg : Reg) : Input := .regRead (p.regAddr reg) 4

/-- R86: the bytes that MEM places, one write each. -/
def memInputs : Nat → List Byte → List Input
  | _, [] => []
  | a, b :: bs => .memWrite a b :: memInputs (a + 1) bs

/-- R86: the inputs of a statement; a command statement is a write of its word to CMD. -/
def HostStmt.inputs (p : Platform) : HostStmt → List Input
  | .wr reg v => [p.wr reg v]
  | .rd reg => [p.rd reg]
  | .wait polls => List.replicate polls (p.rd .status) ++ [.engine, p.rd .status]
  | .mem addr bytes => memInputs addr bytes
  | .command i => [p.wr .cmd (encode i)]

/-- The inputs of a host program. -/
def hostInputs (p : Platform) (prog : List HostStmt) : List Input := prog.flatMap fun st => st.inputs p

/-- R87: SETSRC a, l. -/
def macroSetSrc (a l : Word) : List HostStmt := [.wr .srcAddr a, .wr .srcLen l]

/-- R87: SETDST a, c. -/
def macroSetDst (a c : Word) : List HostStmt := [.wr .dstAddr a, .wr .dstCap c]

/-- R87: HUF.DECODE a, l, d, c. -/
def macroHufDecode (a l d c : Word) (polls : Nat) : List HostStmt :=
  macroSetSrc a l ++ macroSetDst d c ++ [.wr .cmd 0x00000001#32, .wait polls]

/-- R87: RLE.DECODE a, l, d, c. -/
def macroRleDecode (a l d c : Word) (polls : Nat) : List HostStmt :=
  macroSetSrc a l ++ macroSetDst d c ++ [.wr .cmd 0x00000002#32, .wait polls]

/-- R87: HAM.SYNDROME a, l, off. -/
def macroHamSyndrome (a l off : Word) (polls : Nat) : List HostStmt :=
  macroSetSrc a l ++ [.wr .hamBitoff off, .wr .cmd 0x00000004#32, .wait polls, .rd .syndrome]

/-- R87: NOISE.APPLY a, l, d, lvl, seed. -/
def macroNoiseApply (a l d lvl seed : Word) (polls : Nat) : List HostStmt :=
  macroSetSrc a l ++ macroSetDst d l
    ++ [.wr .noiseLevel lvl, .wr .noiseSeed seed, .wr .cmd 0x00000005#32, .wait polls]

/-- R87: ACK, which clears DONE, ERR and CMD_OVR. -/
def macroAck : List HostStmt := [.wr .status 0x0000000E#32]

end Sys2Proof.Machine
end

