-- ==== Sys2Proof/Safety.lean ====
section
/-! DEFINITION. What claims about the machine are stated in: windows that fit, the invariants every step keeps, and safe runs. -/
namespace Sys2Proof.Machine

/-! ## Windows (R106 to R108) -/

/-- R106, R108: a window is no longer than LEN_MAX, ends inside data memory, and all of it is admitted. -/
def Platform.Fits (p : Platform) (w : AddrRange) : Prop :=
  w.len ≤ Config.lenMax ∧ w.base + w.len ≤ 2 ^ p.aw ∧ ∀ i, i < w.len → p.admits (w.base + i) = true

/-- R107: two windows share no address. -/
def AddrRange.Apart (r q : AddrRange) : Prop := ∀ a, ¬ (r.contains a = true ∧ q.contains a = true)

/-- The latched source window fits. -/
def State.SrcFits (s : State) : Prop := s.platform.Fits s.latched.src

/-- The latched destination window fits. -/
def State.DstFits (s : State) : Prop := s.platform.Fits s.latched.dst

/-- R103: the windows a command uses. -/
def usedWindows (i : Instr) (l : Latched) : List AddrRange :=
  match i with
  | .nop => []
  | .hufDec => [l.src, l.dst]
  | .rleDec => [l.src, l.dst]
  | .hamCfg _ => []
  | .hamSyn => [l.src]
  | .noiseInj _ => [l.src, l.dst]

/-! ## When a start check fails (R105 to R108), over addresses -/

/-- R105 step 2, with the code of the error it raises (R196). -/
def ParamFails (i : Instr) (s : State) (code : BitVec 8) : Prop :=
  match i with
  | .nop => False
  | .hufDec => False
  | .rleDec => False
  | .hamCfg k => (k = 0 ∨ 65519 < k) ∧ code = 0x06#8
  | .hamSyn => s.regs.hamK = 0#16 ∧ code = 0x07#8
  | .noiseInj _ => 0x00640000 < s.latched.noiseLevel.toNat ∧ code = 0x06#8

/-- R106. -/
def RangeFails (i : Instr) (s : State) : Prop :=
  ∃ w ∈ usedWindows i s.latched, 0x0FFFFFFF < w.len ∨ 2 ^ s.platform.aw < w.base + w.len

/-- R107: the two windows of a command share an address, and it is no NOISE.INJ in place. -/
def OverlapFails (i : Instr) (s : State) : Prop :=
  match i with
  | .nop => False
  | .hufDec => ∃ a, s.latched.src.contains a = true ∧ s.latched.dst.contains a = true
  | .rleDec => ∃ a, s.latched.src.contains a = true ∧ s.latched.dst.contains a = true
  | .hamCfg _ => False
  | .hamSyn => False
  | .noiseInj _ =>
    (∃ a, s.latched.src.contains a = true ∧ s.latched.dst.contains a = true) ∧ s.latched.dstAddr ≠ s.latched.srcAddr

/-- R108. -/
def AdmitFails (i : Instr) (s : State) : Prop :=
  ∃ w ∈ usedWindows i s.latched, ∃ a, w.contains a = true ∧ s.platform.admits a = false

/-- R105 step 6, with the code of the error it raises (R196). -/
def LengthFails (i : Instr) (s : State) (code : BitVec 8) : Prop :=
  match i with
  | .nop => False
  | .hufDec => False
  | .rleDec => False
  | .hamCfg _ => False
  | .hamSyn => 8 * s.latched.srcLen.toNat < s.latched.hamBitoff.toNat + s.regs.hamN.toNat ∧ code = 0x02#8
  | .noiseInj _ => s.latched.dstCap.toNat < s.latched.srcLen.toNat ∧ code = 0x08#8

/-- R109: the state after a start check fails, or after an illegal word: nothing changes but BUSY, ERR and ERRCODE. -/
def State.failed (s : State) (code : BitVec 8) : State :=
  { s with regs := { s.regs with phase := .idle, err := true, errcode := code } }

/-! ## Bits and bytes in memory -/

/-- Stream bit `t` (R7) of the bytes from address `base` up. -/
def Memory.bit (m : Memory) (base t : Nat) : Bool := (m.read (base + t / 8)).getLsbD (7 - t % 8)

/-- The memory `m'` is `m` but for the bytes of `out`, which stand from `base` up. -/
def Memory.Holds (m m' : Memory) (base : Nat) (out : List Byte) : Prop :=
  (∀ i b, out[i]? = some b → m'.read (base + i) = b) ∧
    ∀ a, (a < base ∨ base + out.length ≤ a) → m'.read a = m.read a

/-! ## Invariants -/

/-- R5: the platform's address width is legal. -/
def Platform.Legal (p : Platform) : Prop := 8 ≤ p.aw ∧ p.aw ≤ 32

/-- The canonical form of memory, and R55: no byte lies outside the address space. -/
def State.MemoryOk (s : State) : Prop := s.mem.wf ∧ ∀ c ∈ s.mem, c.1 < 2 ^ s.platform.aw

/-- R34, R36: the address registers, and their latched copies, hold AW bits. -/
def State.AddressesOk (s : State) : Prop :=
  s.regs.srcAddr.toNat < 2 ^ s.platform.aw ∧ s.regs.dstAddr.toNat < 2 ^ s.platform.aw ∧
    s.latched.srcAddr.toNat < 2 ^ s.platform.aw ∧ s.latched.dstAddr.toNat < 2 ^ s.platform.aw

/-- R196: the values ERRCODE takes. -/
def errorCodes : List (BitVec 8) :=
  [0x00#8, 0x01#8, 0x02#8, 0x03#8, 0x04#8, 0x05#8, 0x06#8, 0x07#8, 0x08#8, 0x10#8, 0x11#8, 0x12#8, 0x13#8, 0x14#8]

/-- R23 to R30, R196: DONE and ERR are never both 1, both and ERRCODE are 0 while BUSY, an error has a code and DONE has none. -/
def Regs.StatusOk (r : Regs) : Prop :=
  ¬ (r.done = true ∧ r.err = true) ∧ (r.phase = .busy → r.done = false ∧ r.err = false ∧ r.errcode = 0#8) ∧
    (r.done = true → r.errcode = 0#8) ∧ (r.err = true → r.errcode ≠ 0#8) ∧ r.errcode ∈ errorCodes

/-- R39, R40, R42, R121, R125: no configuration, or a legal `k` with the geometry it gives and a syndrome of `r` bits. -/
def Regs.HammingOk (r : Regs) : Prop :=
  (r.hamK = 0#16 ∧ r.hamR = 0#8 ∧ r.hamN = 0#16 ∧ r.syndrome = 0#16) ∨
    (1 ≤ r.hamK.toNat ∧ r.hamK.toNat ≤ Config.hamKMax ∧
      2 ^ r.hamR.toNat ≥ r.hamK.toNat + r.hamR.toNat + 1 ∧
      (∀ q, 1 ≤ q → q < r.hamR.toNat → 2 ^ q < r.hamK.toNat + q + 1) ∧
      r.hamN.toNat = r.hamK.toNat + r.hamR.toNat ∧ r.syndrome.toNat < 2 ^ r.hamR.toNat)

/-- R38, R45, R46, R114: the bounds of the result registers. -/
def Regs.ResultsOk (r : Regs) : Prop :=
  r.outLen.toNat ≤ Config.lenMax ∧ r.flipCount.toNat ≤ 8 * Config.lenMax ∧ r.hufNodes.toNat ≤ Config.nodeMax

/-- R22, R101: while a command is in progress CMD holds its word. -/
def State.LatchOk (s : State) : Prop := s.regs.phase = .busy → s.latched.cmd = s.regs.cmd

/-- R220: while reset is asserted the registers hold their reset values. -/
def State.ResetOk (s : State) : Prop := s.resetAsserted = true → s.regs = Regs.reset

/-- R205, R70: while a command that uses a window is in progress, a host access to that window is known to be a race. -/
def State.GuardsOk (s : State) : Prop :=
  s.regs.phase = .busy → ∀ i, decode s.latched.cmd = .ok i → s.latched.guard i ∈ s.guards

/-- The invariants together. -/
structure Inv (s : State) : Prop where
  platform : s.platform.Legal
  memory : s.MemoryOk
  addresses : s.AddressesOk
  status : s.regs.StatusOk
  hamming : s.regs.HammingOk
  results : s.regs.ResultsOk
  latch : s.LatchOk
  reset : s.ResetOk
  guarded : s.GuardsOk

/-! ## Safe runs -/

/-- R70, R62, R55: the action keeps the duties of hosts and platform in this state. -/
def State.dutiful (s : State) : Input → Bool
  | .memRead a => decide (a < s.platform.bytes) && !s.readRaces a
  | .memWrite a _ => decide (a < s.platform.bytes) && !s.writeRaces a
  | .setAdmit refused => s.regs.phase == .idle || decide (refused = s.platform.refused)
  | .engine => true
  | .regRead _ _ => true
  | .regWrite _ _ _ => true
  | .sampleIrq => true
  | .assertReset => true
  | .releaseReset => true
  | .ungate _ => true

/-- A run of `n` steps that neither faults nor is refused. -/
def SafeRun (n : Nat) (s : State) : Prop := ∃ t, Sys2Proof.core.run n s = .next t

end Sys2Proof.Machine
end

