-- ==== Sys2Proof/Certificates/Slice0/Obligations.lean ====
section
/-! DEFINITION. The statements for the provers, from the numbered rules of spec/. -/

open Sys2Proof Sys2Proof.Machine

/-! ## The command word -/

/-- Words written out bit by bit from R77, R81 and the vectors V-CMD-1 to V-CMD-8 decode to what they stand for, and reserved
words are refused. A sanity statement. -/
def Obligations.SpecWordsDecode : Prop :=
  decode 0b0000000000000000_00000000_00000000#32 = .ok .nop ∧
  decode 0b0000000000000000_00000000_00000001#32 = .ok .hufDec ∧
  decode 0b0000000000000000_00000000_00000010#32 = .ok .rleDec ∧
  decode 0b0000000000000100_00000000_00000011#32 = .ok (.hamCfg 4) ∧
  decode 0b1111111111101111_00000000_00000011#32 = .ok (.hamCfg 65519) ∧
  decode 0b0000000000000000_00000000_00000100#32 = .ok .hamSyn ∧
  decode 0b0000000000000000_00000000_00000101#32 = .ok (.noiseInj false) ∧
  decode 0b0000000000000000_00000001_00000101#32 = .ok (.noiseInj true) ∧
  decode 0b0000000000000000_00000000_00000110#32 = .error .reservedOp ∧
  decode 0b0000000000000000_00000001_00000001#32 = .error .reservedFlag ∧
  decode 0b0000000000000000_00000010_00000101#32 = .error .reservedFlag ∧
  decode 0b0000000000000001_00000000_00000001#32 = .error .reservedImm

/-- R81, R85: every command that has an encoding is what its word decodes to, with every operand at every value. -/
def Obligations.DecodeOfEncode : Prop := ∀ i : Instr, i.wellFormed = true → decode (encode i) = .ok i

/-- R81, R84: a word that decodes is the word of what it decodes to: no bit of it is dropped, and no command has two words. -/
def Obligations.EncodeOfDecode : Prop :=
  ∀ (w : Word) (i : Instr), decode w = .ok i → i.wellFormed = true ∧ encode i = w

/-- R81, R82: the words that match no row are exactly those with a reserved OP, a reserved FLAGS bit, or a nonzero IMM16 outside
HAM.CFG; and at most one row matches any word. -/
def Obligations.IllegalWordsAreTheReservedOnes : Prop :=
  ∀ w : Word,
    ((∀ r ∈ opcodeTable, w &&& r.mask ≠ r.value) ↔
      (0x06#8 ≤ w.extractLsb' 0 8 ∨
        (∃ j, 8 ≤ j ∧ j < 16 ∧ w.getLsbD j = true ∧ ¬ (j = 8 ∧ w.extractLsb' 0 8 = 0x05#8)) ∨
        (w.extractLsb' 16 16 ≠ 0#16 ∧ w.extractLsb' 0 8 ≠ 0x03#8))) ∧
    (∀ r ∈ opcodeTable, ∀ q ∈ opcodeTable, w &&& r.mask = r.value → w &&& q.mask = q.value → r = q)

/-- R85: the assembler's word for HAM.CFG with a decimal or hexadecimal number, and its refusal of what does not fit: for every
operand whose number is `n`, the line gives `(n << 16) OR 3` when `n <= 65535` and nothing otherwise. -/
def Obligations.AssemblerEncodesHamCfg : Prop :=
  ∀ (operand : List Char) (n : Nat), numeral operand = some n →
    (n ≤ 65535 → assembleWord ['h', 'a', 'm', '.', 'C', 'F', 'G'] [operand] = some (BitVec.ofNat 32 (n * 65536 + 3))) ∧
    (65535 < n → assembleWord ['h', 'a', 'm', '.', 'C', 'F', 'G'] [operand] = none)

/-! ## The life of a command -/

/-- R104: the engine's turn at a state whose latched word decodes to `i` is the completion of `i`, whether it stands in the list of
actions or comes because the list is empty (the model's reading of the fairness of R104, log 2); a word that is fetched in the
model's sense (log 19) is accepted and runs in the next step. -/
def Obligations.StepRunsTheLatchedCommand : Prop :=
  (∀ (s : State) (i : Instr), s.regs.phase = .busy → decode s.latched.cmd = .ok i → s.inputs = [] → step s = exec i s) ∧
  (∀ (s : State) (i : Instr) (rest : List Input), s.regs.phase = .busy → decode s.latched.cmd = .ok i →
    s.inputs = .engine :: rest → step s = exec i { s with inputs := rest }) ∧
  (∀ (s : State) (i : Instr) (w : Nat), w < 2 ^ 32 → decode (BitVec.ofNat 32 w) = .ok i →
    step (s.withFetchWord 32 w) = exec i ({ s with resetAsserted := false }.accept (BitVec.ofNat 32 w)))

/-- R101: a write of `w` to CMD while BUSY = 0 is accepted; the operand registers are copied, DONE, ERR and ERRCODE are cleared,
BUSY rises, and nothing else changes (the list `guards` is the model's own, log 11). -/
def Obligations.CmdWriteIsAcceptedWhenIdle : Prop :=
  ∀ (s : State) (w : Word), s.resetAsserted = false → s.regs.phase = .idle →
    ∃ g, applyInput (.regWrite (s.platform.regBase + 0x004) 4 w) s = .next { s with
      regs := { s.regs with cmd := w, done := false, err := false, errcode := 0x00#8, phase := .busy }
      latched := { cmd := w, srcAddr := s.regs.srcAddr, srcLen := s.regs.srcLen, dstAddr := s.regs.dstAddr
                   dstCap := s.regs.dstCap, hamBitoff := s.regs.hamBitoff, noiseLevel := s.regs.noiseLevel
                   noiseSeed := s.regs.noiseSeed }
      guards := g }

/-- R102: a write to CMD while BUSY = 1 has one effect, CMD_OVR. -/
def Obligations.CmdWriteIsDroppedWhenBusy : Prop :=
  ∀ (s : State) (w : Word), s.resetAsserted = false → s.regs.phase = .busy →
    applyInput (.regWrite (s.platform.regBase + 0x004) 4 w) s =
      .next { s with regs := { s.regs with cmdOvr := true } }

/-- R195, R104: every command, from every state in which DONE and ERR are clear, completes in one step: BUSY = 0, and exactly one of
DONE and ERR is 1, with a nonzero error code of R196 when it is ERR and ERRCODE as it was when it is DONE. -/
def Obligations.EveryCommandCompletes : Prop :=
  ∀ (i : Instr) (s : State), s.regs.done = false → s.regs.err = false →
    ∃ t, exec i s = .next t ∧ t.regs.phase = .idle ∧ t.regs.done = !t.regs.err ∧
      (t.regs.err = true → t.regs.errcode ∈ errorCodes ∧ t.regs.errcode ≠ 0x00#8) ∧
      (t.regs.done = true → t.regs.errcode = s.regs.errcode)

/-- R104, R233 (fairness, by the model's rule for an empty list of actions, log 2): from every state in which a command is in
progress, whatever the hosts and the platform do, the block is idle, or the run has stopped, after at most one step more than
there are actions to come. -/
def Obligations.BusyBlockBecomesIdle : Prop :=
  ∀ s : State, s.regs.phase = .busy →
    ∃ k ≤ s.inputs.length + 1,
      (∃ t, Sys2Proof.core.run k s = .next t ∧ t.regs.phase = .idle) ∨
      (∃ f, Sys2Proof.core.run k s = .fault f) ∨ (∃ r, Sys2Proof.core.run k s = .refused r)

/-- R105, R109, R82: the start checks in their order, with the code each raises; a command that fails one changes BUSY, ERR and
ERRCODE and nothing else. Step 1 is about the latched word, the others about the command it decodes to. -/
def Obligations.FirstFailedCheckDecides : Prop :=
  ∀ s : State, s.regs.phase = .busy →
    ((∀ r ∈ opcodeTable, s.latched.cmd &&& r.mask ≠ r.value) → engineTurn s = .next (s.failed 0x01#8)) ∧
    ∀ i, decode s.latched.cmd = .ok i →
      (∀ c, ParamFails i s c → engineTurn s = .next (s.failed c)) ∧
      ((∀ c, ¬ ParamFails i s c) → RangeFails i s → engineTurn s = .next (s.failed 0x03#8)) ∧
      ((∀ c, ¬ ParamFails i s c) → ¬ RangeFails i s → OverlapFails i s → engineTurn s = .next (s.failed 0x04#8)) ∧
      ((∀ c, ¬ ParamFails i s c) → ¬ RangeFails i s → ¬ OverlapFails i s → AdmitFails i s →
        engineTurn s = .next (s.failed 0x05#8)) ∧
      ((∀ c, ¬ ParamFails i s c) → ¬ RangeFails i s → ¬ OverlapFails i s → ¬ AdmitFails i s →
        ∀ c, LengthFails i s c → engineTurn s = .next (s.failed c))

/-! ## NOP -/

/-- R110: NOP completes Done from every state, and changes nothing but BUSY and DONE. -/
def Obligations.NopCompletes : Prop :=
  ∀ s : State, exec .nop s = .next { s with regs := { s.regs with phase := .idle, done := true } }

/-! ## The Hamming unit -/

/-- R120, R121: HAM.CFG with a legal `k` completes Done from every state. It sets K, R and N and clears the syndrome, where R is the
smallest integer with `2^r >= k + r + 1`, and nothing else changes; R lies between 2 and 16 and in the bounds of R121. -/
def Obligations.HamCfgSetsTheGeometry : Prop :=
  ∀ (s : State) (k : Nat), 1 ≤ k → k ≤ 65519 →
    ∃ r, 2 ≤ r ∧ r ≤ 16 ∧ 2 ^ r ≥ k + r + 1 ∧ (∀ q, q < r → 2 ^ q < k + q + 1) ∧
      2 ^ (r - 1) + 1 ≤ k + r ∧ k ≤ 2 ^ r - r - 1 ∧
      exec (.hamCfg k) s = .next { s with regs := { s.regs with
        phase := .idle, done := true, hamK := BitVec.ofNat 16 k, hamR := BitVec.ofNat 8 r, hamN := BitVec.ofNat 16 (k + r)
        syndrome := 0#16 } }

/-- R123, R124, R93: HAM.SYN with a configuration, a source window that fits and a block inside it completes Done. The new
syndrome is the product of the ParityMatrix and the block: its bit `j` is the parity of the number of positions whose bit is 1
and whose index has bit `j` set. Nothing else changes, and no memory is written. -/
def Obligations.HamSynMultipliesByTheMatrix : Prop :=
  ∀ s : State, s.regs.hamK ≠ 0#16 → s.SrcFits →
    s.latched.hamBitoff.toNat + s.regs.hamN.toNat ≤ 8 * s.latched.srcLen.toNat →
    ∃ syn : BitVec 16,
      exec .hamSyn s = .next { s with regs := { s.regs with phase := .idle, done := true, syndrome := syn } } ∧
      ∀ j, syn.getLsbD j = decide ((List.range s.regs.hamN.toNat).countP (fun t =>
        s.mem.bit s.latched.srcAddr.toNat (s.latched.hamBitoff.toNat + t) && (t + 1).testBit j) % 2 = 1)

/-- R127: flip exactly the bit at position `p` of a block whose syndrome is 0, and HAM.SYN gives `p`. -/
def Obligations.SingleBitErrorNamesItsPosition : Prop :=
  ∀ (s t : State) (p : Nat), s.mem.wf → s.regs.hamK ≠ 0#16 → s.SrcFits →
    s.latched.hamBitoff.toNat + s.regs.hamN.toNat ≤ 8 * s.latched.srcLen.toNat →
    exec .hamSyn s = .next t → t.regs.syndrome = 0#16 → 1 ≤ p → p ≤ s.regs.hamN.toNat →
    ∀ u a, u = s.latched.hamBitoff.toNat + p - 1 → a = s.latched.srcAddr.toNat + u / 8 →
      ∃ t', exec .hamSyn { s with mem := s.mem.write a (s.mem.read a ^^^ (0x80#8 >>> (u % 8))) } = .next t' ∧
        t'.regs.syndrome = BitVec.ofNat 16 p

/-- R128: take a block with 0 at every parity position, and write bit `j` of its syndrome to parity position `2^j` for each
`j < r`; the block that results has syndrome 0. The geometry is one that HAM.CFG sets (the invariant `HammingOk`). -/
def Obligations.SyndromeBitsAreTheParityBits : Prop :=
  ∀ (s t : State) (m : Memory), s.regs.HammingOk → s.regs.hamK ≠ 0#16 → s.SrcFits →
    s.latched.hamBitoff.toNat + s.regs.hamN.toNat ≤ 8 * s.latched.srcLen.toNat → exec .hamSyn s = .next t →
    (∀ j, j < s.regs.hamR.toNat →
      s.mem.bit s.latched.srcAddr.toNat (s.latched.hamBitoff.toNat + (2 ^ j - 1)) = false ∧
      m.bit s.latched.srcAddr.toNat (s.latched.hamBitoff.toNat + (2 ^ j - 1)) = t.regs.syndrome.getLsbD j) →
    (∀ i, 1 ≤ i → i ≤ s.regs.hamN.toNat → (∀ j, i ≠ 2 ^ j) →
      m.bit s.latched.srcAddr.toNat (s.latched.hamBitoff.toNat + (i - 1)) =
        s.mem.bit s.latched.srcAddr.toNat (s.latched.hamBitoff.toNat + (i - 1))) →
    ∃ t', exec .hamSyn { s with mem := m } = .next t' ∧ t'.regs.syndrome = 0#16

/-! ## The run-length decoder -/

/-- R165, R167, R168, R171: on a stream of legal records whose expansion fits, RLE.DEC completes Done; the destination holds the
expansion, OUT_LEN counts it, and nothing else changes (`scratch` is the working state, which nothing reads). -/
def Obligations.RleDecExpandsRecords : Prop :=
  ∀ (s : State) (items : List RleItem), s.mem.wf → s.SrcFits → s.DstFits → s.latched.src.Apart s.latched.dst →
    (∀ it ∈ items, it.legal = true) → s.srcBytes = items.flatMap RleItem.stream →
    (items.flatMap RleItem.expansion).length ≤ s.latched.dstCap.toNat →
    ∃ m w, exec .rleDec s = .next { s with
        regs := { s.regs with
          phase := .idle, done := true, outLen := BitVec.ofNat 32 (items.flatMap RleItem.expansion).length }
        mem := m, scratch := w } ∧
      s.mem.Holds m s.latched.dstAddr.toNat (items.flatMap RleItem.expansion)

/-- R169, R201: legal records, then a record cut off by the end of the source window: INVALID_INPUT_LENGTH, with the output of the
complete records written and counted. -/
def Obligations.RleDecStopsAtTruncatedRecord : Prop :=
  ∀ (s : State) (items : List RleItem) (c : Byte) (tail : List Byte), s.mem.wf → s.SrcFits → s.DstFits →
    s.latched.src.Apart s.latched.dst → (∀ it ∈ items, it.legal = true) →
    s.srcBytes = items.flatMap RleItem.stream ++ c :: tail →
    (0 < c.toInt ∧ (tail.length : Int) < c.toInt ∨ c.toInt ≤ 0 ∧ tail = []) →
    (items.flatMap RleItem.expansion).length ≤ s.latched.dstCap.toNat →
    ∃ m w, exec .rleDec s = .next { s with
        regs := { s.regs with
          phase := .idle, err := true, errcode := 0x02#8
          outLen := BitVec.ofNat 32 (items.flatMap RleItem.expansion).length }
        mem := m, scratch := w } ∧
      s.mem.Holds m s.latched.dstAddr.toNat (items.flatMap RleItem.expansion)

/-- R170, R201: legal records whose expansion passes the destination, whatever follows them: DST_OVERFLOW, with exactly DST_CAP
bytes written, the first of the expansion. -/
def Obligations.RleDecStopsAtFullDestination : Prop :=
  ∀ (s : State) (items : List RleItem) (tail : List Byte), s.mem.wf → s.SrcFits → s.DstFits →
    s.latched.src.Apart s.latched.dst → (∀ it ∈ items, it.legal = true) →
    s.srcBytes = items.flatMap RleItem.stream ++ tail →
    s.latched.dstCap.toNat < (items.flatMap RleItem.expansion).length →
    ∃ m w, exec .rleDec s = .next { s with
        regs := { s.regs with phase := .idle, err := true, errcode := 0x08#8, outLen := s.latched.dstCap }
        mem := m, scratch := w } ∧
      s.mem.Holds m s.latched.dstAddr.toNat ((items.flatMap RleItem.expansion).take s.latched.dstCap.toNat)

/-- R171: an RLE.DEC that completes Done writes at most 64 bytes for each byte of its source window. -/
def Obligations.RleDecOutputBound : Prop :=
  ∀ s t : State, s.regs.done = false → exec .rleDec s = .next t → t.regs.done = true →
    t.regs.outLen.toNat ≤ 64 * s.latched.srcLen.toNat

/-! ## The Huffman decoder -/

/-- R140, R147, R150: a stream made of the header of `pad`, a tree with at least two leaves, codes of that tree and `pad` padding
bits of any value decodes to the codes' bytes when they fit: Done, OUT_LEN and HUF_INFO as R140 gives, and nothing else
changes (`scratch` is the working state, which nothing reads). -/
def Obligations.HufDecDecodesTreeAndCodes : Prop :=
  ∀ (s : State) (l r : HufTree) (codes : List (List Bool)) (ds : List Byte) (pad : Nat) (padBits : List Bool)
    (body : List Byte), s.mem.wf → s.SrcFits → s.DstFits → s.latched.src.Apart s.latched.dst →
    (HufTree.node l r).nodes ≤ 511 → codes.map (HufTree.node l r).codeOf = ds.map some → pad < 256 → padBits.length = pad →
    s.srcBytes = hufHeader pad :: body →
    streamBits body = (HufTree.node l r).bits ++ codes.flatten ++ padBits → ds.length ≤ s.latched.dstCap.toNat →
    ∃ m w, exec .hufDec s = .next { s with
        regs := { s.regs with
          phase := .idle, done := true, outLen := BitVec.ofNat 32 ds.length, hufPad := BitVec.ofNat 8 pad
          hufNodes := BitVec.ofNat 16 (HufTree.node l r).nodes }
        mem := m, scratch := w } ∧
      s.mem.Holds m s.latched.dstAddr.toNat ds

/-- R141, R142, R143: the cases that read no tree. An empty source, and a header whose padding count takes every stream bit, give
nothing and complete Done; a padding count above the stream bits is HUF_BAD_HEADER. -/
def Obligations.HufDecHeaderCases : Prop :=
  ∀ s : State, s.SrcFits → s.DstFits → s.latched.src.Apart s.latched.dst →
    (s.latched.srcLen.toNat = 0 → ∃ w, exec .hufDec s = .next { s with
      regs := { s.regs with
        phase := .idle, done := true, outLen := 0#32, hufPad := 0#8, hufNodes := 0#16 }
      scratch := w }) ∧
    (s.latched.srcLen.toNat ≠ 0 → ∀ p, p = ((s.mem.read s.latched.srcAddr.toNat).toNat + 128) % 256 →
      (p = 8 * (s.latched.srcLen.toNat - 1) → ∃ w, exec .hufDec s = .next { s with
        regs := { s.regs with
          phase := .idle, done := true, outLen := 0#32, hufPad := BitVec.ofNat 8 p, hufNodes := 0#16 }
        scratch := w }) ∧
      (8 * (s.latched.srcLen.toNat - 1) < p → ∃ w, exec .hufDec s = .next { s with
        regs := { s.regs with
          phase := .idle, err := true, errcode := 0x10#8, outLen := 0#32, hufPad := BitVec.ofNat 8 p, hufNodes := 0#16 }
        scratch := w }))

/-- R146: a root that is a leaf, whatever follows it, is HUF_DEGENERATE_TREE, with one node and no output. -/
def Obligations.HufDecRefusesLeafRoot : Prop :=
  ∀ (s : State) (v : Byte) (pad : Nat) (more padBits : List Bool) (body : List Byte), s.SrcFits → s.DstFits →
    s.latched.src.Apart s.latched.dst → pad < 256 → padBits.length = pad → s.srcBytes = hufHeader pad :: body →
    streamBits body = (HufTree.leaf v).bits ++ more ++ padBits →
    ∃ w, exec .hufDec s = .next { s with
      regs := { s.regs with
        phase := .idle, err := true, errcode := 0x13#8, outLen := 0#32, hufPad := BitVec.ofNat 8 pad, hufNodes := 1#16 }
      scratch := w }

/-- R144, R145, R197: meaningful bits that end inside a tree, at most 255 of them bits of internal nodes, are HUF_TREE_TRUNCATED,
with the two children of each of these and the root allocated. Meaningful bits that begin with any part of a tree's serialisation
that holds 256 bits of internal nodes, whatever follows it, are HUF_TREE_OVERFLOW, with 511 nodes allocated. Neither writes a
byte. A whole tree of more than 511 nodes is such a part, and so are the 256 ones of R145's example. -/
def Obligations.HufDecTreeErrors : Prop :=
  ∀ (s : State) (t : HufTree) (pad : Nat) (bits padBits : List Bool) (body : List Byte), s.SrcFits → s.DstFits →
    s.latched.src.Apart s.latched.dst → pad < 256 → padBits.length = pad → s.srcBytes = hufHeader pad :: body →
    streamBits body = bits ++ padBits →
    (bits ≠ [] → (∃ more, more ≠ [] ∧ bits ++ more = t.bits) → t.internalBits bits.length ≤ 255 → ∃ w,
      exec .hufDec s = .next { s with
        regs := { s.regs with
          phase := .idle, err := true, errcode := 0x11#8, outLen := 0#32, hufPad := BitVec.ofNat 8 pad
          hufNodes := BitVec.ofNat 16 (1 + 2 * t.internalBits bits.length) }
        scratch := w }) ∧
    ((∃ read more rest, bits = read ++ rest ∧ read ++ more = t.bits ∧ 256 ≤ t.internalBits read.length) → ∃ w,
      exec .hufDec s = .next { s with
        regs := { s.regs with
          phase := .idle, err := true, errcode := 0x12#8, outLen := 0#32, hufPad := BitVec.ofNat 8 pad
          hufNodes := 511#16 }
        scratch := w })

/-- R148, R149, R201: codes of the tree, then either part of a code at the end of the meaningful bits (HUF_PARTIAL_CODE, when the
complete codes fit), or more complete codes than the destination has room for, whatever follows them (DST_OVERFLOW). -/
def Obligations.HufDecWalkErrors : Prop :=
  ∀ (s : State) (l r : HufTree) (codes : List (List Bool)) (ds : List Byte) (pad : Nat) (tail padBits : List Bool)
    (body : List Byte), s.mem.wf → s.SrcFits → s.DstFits → s.latched.src.Apart s.latched.dst →
    (HufTree.node l r).nodes ≤ 511 → codes.map (HufTree.node l r).codeOf = ds.map some → pad < 256 → padBits.length = pad →
    s.srcBytes = hufHeader pad :: body →
    streamBits body = (HufTree.node l r).bits ++ codes.flatten ++ tail ++ padBits →
    (ds.length ≤ s.latched.dstCap.toNat → tail ≠ [] →
      (∃ more v, more ≠ [] ∧ (HufTree.node l r).codeOf (tail ++ more) = some v) →
      ∃ m w, exec .hufDec s = .next { s with
          regs := { s.regs with
            phase := .idle, err := true, errcode := 0x14#8, outLen := BitVec.ofNat 32 ds.length
            hufPad := BitVec.ofNat 8 pad, hufNodes := BitVec.ofNat 16 (HufTree.node l r).nodes }
          mem := m, scratch := w } ∧
        s.mem.Holds m s.latched.dstAddr.toNat ds) ∧
    (s.latched.dstCap.toNat < ds.length →
      ∃ m w, exec .hufDec s = .next { s with
          regs := { s.regs with
            phase := .idle, err := true, errcode := 0x08#8, outLen := s.latched.dstCap
            hufPad := BitVec.ofNat 8 pad, hufNodes := BitVec.ofNat 16 (HufTree.node l r).nodes }
          mem := m, scratch := w } ∧
        s.mem.Holds m s.latched.dstAddr.toNat (ds.take s.latched.dstCap.toNat))

/-! ## The injector -/

/-- R180, R181, R183, R184, R186: NOISE.INJ, with a legal level, windows that fit and are apart or start at the same address, and
room for the source, completes Done, for every value of the free selection and of the entropy draw. There are exactly
`floor(8L * v / 6553600)` distinct positions below `8L` such that each bit of the output differs from the source bit as at
acceptance exactly at these; FLIP_COUNT and OUT_LEN are set, and nothing else changes. -/
def Obligations.NoiseInjFlipsTheSelection : Prop :=
  ∀ (s : State) (ent : Bool), s.mem.wf → s.latched.noiseLevel.toNat ≤ 0x00640000 → s.SrcFits → s.DstFits →
    (s.latched.src.Apart s.latched.dst ∨ s.latched.dstAddr = s.latched.srcAddr) →
    s.latched.srcLen.toNat ≤ s.latched.dstCap.toNat →
    ∃ (S : List Nat) (m : Memory) (w : Scratch) (d : Nat),
      S.Pairwise (· < ·) ∧ (∀ q ∈ S, q < 8 * s.latched.srcLen.toNat) ∧
      S.length = 8 * s.latched.srcLen.toNat * s.latched.noiseLevel.toNat / 6553600 ∧
      exec (.noiseInj ent) s = .next { s with
        regs := { s.regs with
          phase := .idle, done := true
          flipCount := BitVec.ofNat 32 (8 * s.latched.srcLen.toNat * s.latched.noiseLevel.toNat / 6553600)
          outLen := s.latched.srcLen }
        mem := m, scratch := w, draws := d } ∧
      (∀ i, i < s.latched.srcLen.toNat → ∀ j, j < 8 →
        (m.read (s.latched.dstAddr.toNat + i)).getLsbD (7 - j) =
          ((s.mem.read (s.latched.srcAddr.toNat + i)).getLsbD (7 - j) ^^ decide (8 * i + j ∈ S))) ∧
      ∀ a, (a < s.latched.dstAddr.toNat ∨ s.latched.dstAddr.toNat + s.latched.srcLen.toNat ≤ a) → m.read a = s.mem.read a

/-- R187, R180: level 0 copies the source and flips nothing; level 100 percent inverts every byte and flips every bit, whatever
the selection is. -/
def Obligations.NoiseInjAtTheExtremeLevels : Prop :=
  ∀ (s t : State) (ent : Bool), s.mem.wf → s.regs.done = false → exec (.noiseInj ent) s = .next t → t.regs.done = true →
    (s.latched.noiseLevel = 0#32 → t.regs.flipCount = 0#32 ∧ ∀ i, i < s.latched.srcLen.toNat →
      t.mem.read (s.latched.dstAddr.toNat + i) = s.mem.read (s.latched.srcAddr.toNat + i)) ∧
    (s.latched.noiseLevel = 0x00640000#32 → t.regs.flipCount.toNat = 8 * s.latched.srcLen.toNat ∧
      ∀ i, i < s.latched.srcLen.toNat →
        t.mem.read (s.latched.dstAddr.toNat + i) = ~~~ (s.mem.read (s.latched.srcAddr.toNat + i)))

/-- R185, R183: two NOISE.INJ commands with ENT = 0 and the same seed, length and level flip the same bits, whatever the data. -/
def Obligations.NoiseInjIsReproducible : Prop :=
  ∀ s1 s2 t1 t2 : State, s1.mem.wf → s2.mem.wf → s1.regs.done = false → s2.regs.done = false →
    exec (.noiseInj false) s1 = .next t1 → exec (.noiseInj false) s2 = .next t2 → t1.regs.done = true → t2.regs.done = true →
    s1.latched.noiseSeed = s2.latched.noiseSeed → s1.latched.noiseLevel = s2.latched.noiseLevel →
    s1.latched.srcLen = s2.latched.srcLen →
    ∀ i, i < s1.latched.srcLen.toNat →
      (s1.mem.read (s1.latched.srcAddr.toNat + i) ^^^ t1.mem.read (s1.latched.dstAddr.toNat + i)) =
        (s2.mem.read (s2.latched.srcAddr.toNat + i) ^^^ t2.mem.read (s2.latched.dstAddr.toNat + i))

/-- R187: NOISE.INJ with the same seed, level and length, applied to its own first output, gives the original bytes back. -/
def Obligations.NoiseInjTwiceRestores : Prop :=
  ∀ s1 s2 t1 t2 : State, s1.mem.wf → s2.mem.wf → s1.regs.done = false → s2.regs.done = false →
    exec (.noiseInj false) s1 = .next t1 → exec (.noiseInj false) s2 = .next t2 → t1.regs.done = true → t2.regs.done = true →
    s1.latched.noiseSeed = s2.latched.noiseSeed → s1.latched.noiseLevel = s2.latched.noiseLevel →
    s1.latched.srcLen = s2.latched.srcLen →
    (∀ i, i < s1.latched.srcLen.toNat →
      s2.mem.read (s2.latched.srcAddr.toNat + i) = t1.mem.read (s1.latched.dstAddr.toNat + i)) →
    ∀ i, i < s1.latched.srcLen.toNat →
      t2.mem.read (s2.latched.dstAddr.toNat + i) = s1.mem.read (s1.latched.srcAddr.toNat + i)

/-! ## Register accesses -/

/-- R111, R20: a 32-bit aligned read returns the register's value and changes nothing of the block; a reserved offset and CTRL
read 0, ID reads its constant, and STATUS reads as StatusReadsBitByBit says bit for bit (`hostData` and `guards` are the model's
own, log 11 and 16). -/
def Obligations.RegisterReadsHaveNoSideEffect : Prop :=
  ∀ (s : State) (o : Nat), s.resetAsserted = false → o < 0x1000 → o % 4 = 0 →
    ∃ v g, applyInput (.regRead (s.platform.regBase + o) 4) s = .next { s with hostData := v, guards := g } ∧
      (o = 0x000 → v = 0x43465831#32) ∧ (o = 0x004 → v = s.regs.cmd) ∧ (o = 0x008 → v = s.regs.read .status) ∧
      (o = 0x00C → v.toNat = s.regs.doneIe.toNat + 2 * s.regs.errIe.toNat) ∧ (o = 0x010 → v = 0#32) ∧
      (o = 0x014 → v = s.regs.srcAddr) ∧ (o = 0x018 → v = s.regs.srcLen) ∧ (o = 0x01C → v = s.regs.dstAddr) ∧
      (o = 0x020 → v = s.regs.dstCap) ∧ (o = 0x024 → v = s.regs.outLen) ∧
      (o = 0x028 → v.toNat = s.regs.hamK.toNat) ∧
      (o = 0x02C → v.toNat = s.regs.hamR.toNat + 65536 * s.regs.hamN.toNat) ∧
      (o = 0x030 → v = s.regs.hamBitoff) ∧ (o = 0x034 → v.toNat = s.regs.syndrome.toNat) ∧
      (o = 0x038 → v = s.regs.noiseLevel) ∧ (o = 0x03C → v = s.regs.noiseSeed) ∧ (o = 0x040 → v = s.regs.flipCount) ∧
      (o = 0x044 → v.toNat = s.regs.hufPad.toNat + 65536 * s.regs.hufNodes.toNat) ∧ (0x048 ≤ o → v = 0#32)

/-- R23 to R31: what a read of STATUS returns, bit for bit: BUSY, DONE, ERR, CMD_OVR, the combinational SYN_NZ, SYN_OVR and
HAM_RDY, 0, ERRCODE, and 0 above. -/
def Obligations.StatusReadsBitByBit : Prop :=
  ∀ (r : Regs) (j : Nat), (r.read .status).getLsbD j =
    if j = 0 then decide (r.phase = .busy) else if j = 1 then r.done else if j = 2 then r.err else if j = 3 then r.cmdOvr
    else if j = 4 then decide (r.syndrome ≠ 0#16) else if j = 5 then decide (r.hamN.toNat < r.syndrome.toNat)
    else if j = 6 then decide (r.hamK ≠ 0#16) else if j = 7 then false
    else if j < 16 then r.errcode.getLsbD (j - 8) else false

/-- R31: a write to STATUS clears those of DONE, ERR and CMD_OVR whose written bit is 1, and changes nothing else; bits 7 and
[31:16] read 0, whatever was written. -/
def Obligations.StatusWriteClearsWrittenBits : Prop :=
  ∀ (s : State) (w : Word), s.resetAsserted = false →
    ∃ t, applyInput (.regWrite (s.platform.regBase + 0x008) 4 w) s = .next t ∧
      t = { s with regs := { s.regs with
        done := if w.getLsbD 1 then false else s.regs.done
        err := if w.getLsbD 2 then false else s.regs.err
        cmdOvr := if w.getLsbD 3 then false else s.regs.cmdOvr } } ∧
      ∀ j, (j = 7 ∨ 16 ≤ j) → (t.regs.read .status).getLsbD j = false

/-- R112, R32 to R37, R41, R43, R44: a write to an operand register or IRQ_EN stores the writable bits and nothing else; a read then
returns them. The address registers keep AW bits (of a legal AW, R5), IRQ_EN its two. -/
def Obligations.RegisterWritesStore : Prop :=
  ∀ (s : State) (v : Word), s.resetAsserted = false → s.platform.Legal →
    let wr := fun o => applyInput (.regWrite (s.platform.regBase + o) 4 v) s
    (wr 0x00C = .next { s with regs := { s.regs with doneIe := v.getLsbD 0, errIe := v.getLsbD 1 } } ∧
      ∀ r : Regs, r.doneIe = v.getLsbD 0 → r.errIe = v.getLsbD 1 → r.read .irqEn = v &&& 0x3#32) ∧
    (∃ a : Word, a.toNat = v.toNat % 2 ^ s.platform.aw ∧
      wr 0x014 = .next { s with regs := { s.regs with srcAddr := a } } ∧
      wr 0x01C = .next { s with regs := { s.regs with dstAddr := a } }) ∧
    wr 0x018 = .next { s with regs := { s.regs with srcLen := v } } ∧
    wr 0x020 = .next { s with regs := { s.regs with dstCap := v } } ∧
    wr 0x030 = .next { s with regs := { s.regs with hamBitoff := v } } ∧
    wr 0x038 = .next { s with regs := { s.regs with noiseLevel := v } } ∧
    wr 0x03C = .next { s with regs := { s.regs with noiseSeed := v } }

/-- R112, R33: a write to ID, to a result register, to a reserved offset, or to CTRL with bit 0 = 0, has no effect. -/
def Obligations.ReadOnlyRegistersIgnoreWrites : Prop :=
  ∀ (s : State) (v : Word) (o : Nat), s.resetAsserted = false → o < 0x1000 → o % 4 = 0 →
    (o ∈ [0x000, 0x024, 0x028, 0x02C, 0x034, 0x040, 0x044] ∨ 0x048 ≤ o ∨ (o = 0x010 ∧ v.getLsbD 0 = false)) →
    applyInput (.regWrite (s.platform.regBase + o) 4 v) s = .next s

/-- R58, R220: a register access of another width or alignment is refused, and so is every access while reset is asserted. That
the reason given is accessInReset, and not accessShape, for an access to which both apply is the model's choice (log 14). -/
def Obligations.OtherRegisterAccessesAreRefused : Prop :=
  ∀ (s : State) (o bytes : Nat) (v : Word), o < 0x1000 →
    (s.resetAsserted = true →
      applyInput (.regRead (s.platform.regBase + o) bytes) s = .refused .accessInReset ∧
      applyInput (.regWrite (s.platform.regBase + o) bytes v) s = .refused .accessInReset) ∧
    (s.resetAsserted = false → (bytes ≠ 4 ∨ o % 4 ≠ 0) →
      applyInput (.regRead (s.platform.regBase + o) bytes) s = .refused .accessShape ∧
      applyInput (.regWrite (s.platform.regBase + o) bytes v) s = .refused .accessShape)

/-- R52, R198: the interrupt line follows the bits of STATUS and IRQ_EN as a host reads them, at every instant at which reset is
not asserted. -/
def Obligations.IrqFollowsStatusAndEnables : Prop :=
  ∀ s : State, s.resetAsserted = false → s.irq =
    (((s.regs.read .status).getLsbD 1 && (s.regs.read .irqEn).getLsbD 0) ||
      (((s.regs.read .status).getLsbD 2 || (s.regs.read .status).getLsbD 3) && (s.regs.read .irqEn).getLsbD 1))

/-- R49, R227: a write to an operand register or IRQ_EN while BUSY does not reach the command in progress: before its completion or
after, the same state results. -/
def Obligations.OperandWritesDoNotReachTheCommand : Prop :=
  ∀ (s a b : State) (o : Nat) (v : Word), s.resetAsserted = false → s.regs.phase = .busy →
    o ∈ [0x00C, 0x014, 0x018, 0x01C, 0x020, 0x030, 0x038, 0x03C] →
    applyInput (.regWrite (s.platform.regBase + o) 4 v) s = .next a →
    applyInput .engine s = .next b →
    ∃ t, applyInput .engine a = .next t ∧ applyInput (.regWrite (s.platform.regBase + o) 4 v) b = .next t

/-- R202: the two orders of a completion and a host's write. A CMD write before the completion is dropped, after it accepted; a
STATUS write before the completion leaves the new DONE or ERR at 1, after it clears them; a soft reset before the completion leaves
no completion, after it clears the results. -/
def Obligations.BothOrdersOfCompletionAndWrite : Prop :=
  ∀ (s b : State) (w : Word), s.resetAsserted = false → s.regs.phase = .busy → s.regs.done = false → s.regs.err = false →
    applyInput .engine s = .next b →
    (∃ a t, applyInput (.regWrite (s.platform.regBase + 0x004) 4 w) s = .next a ∧ applyInput .engine a = .next t ∧
      t.regs.cmdOvr = true ∧ t.regs.cmd = s.regs.cmd ∧ t.regs.phase = .idle) ∧
    (∃ t, applyInput (.regWrite (s.platform.regBase + 0x004) 4 w) b = .next t ∧
      t.regs.cmdOvr = s.regs.cmdOvr ∧ t.regs.cmd = w ∧ t.regs.phase = .busy) ∧
    (∃ a t, applyInput (.regWrite (s.platform.regBase + 0x008) 4 0x0000000E#32) s = .next a ∧
      applyInput .engine a = .next t ∧ (t.regs.done || t.regs.err) = true ∧ t.regs.cmdOvr = false) ∧
    (∃ t, applyInput (.regWrite (s.platform.regBase + 0x008) 4 0x0000000E#32) b = .next t ∧
      t.regs.done = false ∧ t.regs.err = false ∧ t.regs.cmdOvr = false) ∧
    (∃ a, applyInput (.regWrite (s.platform.regBase + 0x010) 4 1#32) s = .next a ∧ applyInput .engine a = .next a ∧
      a.regs.done = false ∧ a.regs.err = false) ∧
    (∃ t, applyInput (.regWrite (s.platform.regBase + 0x010) 4 1#32) b = .next t ∧ t.regs = Regs.reset)

/-! ## Reset -/

/-- R53, R222, R220, R212: after a soft reset (CTRL written with bit 0 = 1), after a hard reset, and after power gating that lost
the state, every register reads 0 but ID, the block is idle and `irq` is 0; a reset of an idle block does not touch data memory. -/
def Obligations.ResetLeavesTheResetValues : Prop :=
  ∀ (s t : State) (v : Word),
    ((s.resetAsserted = false ∧ v.getLsbD 0 = true ∧ applyInput (.regWrite (s.platform.regBase + 0x010) 4 v) s = .next t) ∨
      applyInput .assertReset s = .next t ∨ applyInput (.ungate false) s = .next t) →
    (∀ reg, reg ≠ .id → t.regs.read reg = 0#32) ∧ t.regs.read .id = 0x43465831#32 ∧ t.regs.phase = .idle ∧ t.irq = false ∧
      t.platform = s.platform ∧ (s.regs.phase = .idle → t.mem = s.mem)

/-- R223: a reset, hard or soft, while a command is in progress ends it without a completion, and every register has its reset
value. Data memory changes only inside the destination window of a command that uses one, and in both windows of a NOISE.INJ in
place; the source window of every other command is unchanged. Each existing byte of both windows of a NOISE.INJ in place, and of
the destination window of any other command outside its source window, reads as a free value. (That a byte in both windows of a
command not in place keeps its value is the model's reading, log 10.) -/
def Obligations.ResetAbandonsTheCommand : Prop :=
  ∀ (s t : State) (i : Instr) (v : Word), s.regs.phase = .busy → decode s.latched.cmd = .ok i →
    ((s.resetAsserted = false ∧ v.getLsbD 0 = true ∧ applyInput (.regWrite (s.platform.regBase + 0x010) 4 v) s = .next t) ∨
      applyInput .assertReset s = .next t) →
    t.regs = Regs.reset ∧
      (∀ a, t.mem.read a ≠ s.mem.read a → (usesDst i = true ∧ s.latched.dst.contains a = true) ∨
        ((∃ ent, i = .noiseInj ent) ∧ s.latched.dstAddr = s.latched.srcAddr ∧ s.latched.src.contains a = true)) ∧
      ((∀ ent, i = .noiseInj ent → s.latched.dstAddr ≠ s.latched.srcAddr) →
        ∀ a, s.latched.src.contains a = true → t.mem.read a = s.mem.read a) ∧
      (s.mem.wf → ∀ a, a < 2 ^ s.platform.aw →
        (((∃ ent, i = .noiseInj ent) ∧ s.latched.dstAddr = s.latched.srcAddr ∧
            (s.latched.src.contains a = true ∨ s.latched.dst.contains a = true)) ∨
          (usesDst i = true ∧ s.latched.dst.contains a = true ∧ s.latched.src.contains a = false)) →
        t.mem.read a = Config.freeByte s.draws a)

/-! ## The whole machine -/

/-- R61, R76: a completion changes data memory only at `LDST_ADDR + i` with `i < OUT_LEN`, inside the destination window, and only
for HUF.DEC, RLE.DEC and NOISE.INJ. -/
def Obligations.EngineWritesOnlyItsOutput : Prop :=
  ∀ (s t : State) (a : Nat), applyInput .engine s = .next t → t.mem.read a ≠ s.mem.read a →
    s.regs.phase = .busy ∧
      (decode s.latched.cmd = .ok .hufDec ∨ decode s.latched.cmd = .ok .rleDec ∨
        ∃ ent, decode s.latched.cmd = .ok (.noiseInj ent)) ∧
      s.latched.dstAddr.toNat ≤ a ∧ a < s.latched.dstAddr.toNat + t.regs.outLen.toNat ∧
      a < s.latched.dstAddr.toNat + s.latched.dstCap.toNat

/-- R38 to R46: the result registers change only where their rules say: in any step that is no reset (which leaves the registers
at Regs.reset), HAM_K and HAM_GEOM change only by the completion of a HAM.CFG, SYNDROME by HAM.CFG or HAM.SYN, OUT_LEN by
HUF.DEC, RLE.DEC or NOISE.INJ, FLIP_COUNT by NOISE.INJ, and HUF_INFO by HUF.DEC. -/
def Obligations.ResultRegistersChangeOnlyByTheirCommands : Prop :=
  ∀ s t : State, step s = .next t → t.regs ≠ Regs.reset →
    ((t.regs.hamK ≠ s.regs.hamK ∨ t.regs.hamR ≠ s.regs.hamR ∨ t.regs.hamN ≠ s.regs.hamN) →
      ∃ k, decode s.latched.cmd = .ok (.hamCfg k)) ∧
    (t.regs.syndrome ≠ s.regs.syndrome →
      decode s.latched.cmd = .ok .hamSyn ∨ ∃ k, decode s.latched.cmd = .ok (.hamCfg k)) ∧
    (t.regs.outLen ≠ s.regs.outLen →
      decode s.latched.cmd = .ok .hufDec ∨ decode s.latched.cmd = .ok .rleDec ∨
        ∃ ent, decode s.latched.cmd = .ok (.noiseInj ent)) ∧
    (t.regs.flipCount ≠ s.regs.flipCount → ∃ ent, decode s.latched.cmd = .ok (.noiseInj ent)) ∧
    ((t.regs.hufPad ≠ s.regs.hufPad ∨ t.regs.hufNodes ≠ s.regs.hufNodes) → decode s.latched.cmd = .ok .hufDec) ∧
    ((t.regs.hamK ≠ s.regs.hamK ∨ t.regs.hamR ≠ s.regs.hamR ∨ t.regs.hamN ≠ s.regs.hamN ∨
      t.regs.syndrome ≠ s.regs.syndrome ∨ t.regs.outLen ≠ s.regs.outLen ∨ t.regs.flipCount ≠ s.regs.flipCount ∨
      t.regs.hufPad ≠ s.regs.hufPad ∨ t.regs.hufNodes ≠ s.regs.hufNodes) →
      s.regs.phase = .busy ∧ t.regs.phase = .idle)

/-- R2: a command's result depends only on the latched copies, the bytes of its source window, the Hamming configuration and the
free values: two states that agree on the registers, the latched copies, the platform, the draws and the source bytes, whatever
else is in memory and in the hidden working state, give the same registers and the same output bytes. -/
def Obligations.ResultDependsOnlyOnTheOperands : Prop :=
  ∀ (i : Instr) (s1 s2 t1 t2 : State), s1.mem.wf → s2.mem.wf → s1.regs = s2.regs → s1.regs.done = false →
    s1.latched = s2.latched → s1.platform = s2.platform → s1.draws = s2.draws → s1.srcBytes = s2.srcBytes →
    exec i s1 = .next t1 → exec i s2 = .next t2 →
    t1.regs = t2.regs ∧ t1.draws = t2.draws ∧
      (usesDst i = true → t1.regs.done = true → ∀ k, k < t1.regs.outLen.toNat →
        t1.mem.read (s1.latched.dstAddr.toNat + k) = t2.mem.read (s1.latched.dstAddr.toNat + k))

/-- R53, R49 to R51: the hidden state is unobservable, because every command initialises what it reads. A completion differs in
the working state alone, whatever that was, and an acceptance leaves no trace of the latched copies before it. So does every step,
of any agent: two states that agree on all but the working state and, with no command in progress, the latched copies, answer
alike, the same fault or refusal or two next states that agree so again. Registers, memory, `irq` and what the host last read are
among what they agree on. -/
def Obligations.HiddenStateIsUnobservable : Prop :=
  (∀ (i : Instr) (s t : State) (x : Scratch), exec i s = .next t →
    ∃ y, exec i { s with scratch := x } = .next { t with scratch := y }) ∧
  (∀ (s : State) (w : Word) (l : Latched), State.accept { s with latched := l } w = s.accept w) ∧
  (∀ (s : State) (x : Scratch) (l : Latched), (s.regs.phase = .busy → l = s.latched) →
    (∀ t, step s = .next t → ∃ y m, step { s with scratch := x, latched := l } = .next { t with scratch := y, latched := m } ∧
      (t.regs.phase = .busy → m = t.latched)) ∧
    (∀ f, step s = .fault f → step { s with scratch := x, latched := l } = .fault f) ∧
    (∀ r, step s = .refused r → step { s with scratch := x, latched := l } = .refused r))

/-- R70, R228, R62: while a command is in progress a host's data write inside one of the windows it uses, and a data read inside
its destination window, are the fault HOST_WINDOW_RACE, and a change of Admit is PLATFORM_ADMIT_CHANGED; a read of a source
window outside every destination window returns the byte. The premise `GuardsOk` is part of the invariant. How long a window stays
guarded is the model's reading of R70 (log 11), that a new list of ranges with the same Admit is a change too is its choice
(log 13), and so is the read of source bytes past the destination of a NOISE.INJ in place (log 27). -/
def Obligations.DutiesWhileBusy : Prop :=
  ∀ (s : State) (i : Instr) (a : Nat) (v : Byte), s.regs.phase = .busy → decode s.latched.cmd = .ok i → s.GuardsOk →
    a < 2 ^ s.platform.aw →
    ((∃ w ∈ usedWindows i s.latched, w.contains a = true) → applyInput (.memWrite a v) s = .fault .hostWindowRace) ∧
    (usesDst i = true → s.latched.dst.contains a = true →
      applyInput (.memRead a) s = .fault .hostWindowRace) ∧
    ((∀ g ∈ s.guards, g.dst.contains a = false) →
      applyInput (.memRead a) s = .next { s with hostData := (s.mem.read a).setWidth 32 }) ∧
    (∀ refused, refused ≠ s.platform.refused → applyInput (.setAdmit refused) s = .fault .platformAdmitChanged)

/-- R195, R62, R70, R55: a step faults exactly when the next action breaks a duty of a host or of the platform: no command ever
faults, and no register access does. What a broken duty is rests on the model's readings and choices: the windows that are still
guarded (log 11), a change of Admit judged on its list of ranges (log 13), and the fault of a data access outside the address
space (log 15). -/
def Obligations.OnlyBrokenDutiesFault : Prop :=
  ∀ s : State, (∃ f, step s = .fault f) ↔
    ∃ e rest, s.inputs = e :: rest ∧ State.dutiful { s with inputs := rest } e = false

/-- The invariant of the machine is kept by every step: memory keeps its canonical form inside the address space, the address
registers keep AW bits, DONE and ERR exclude each other and ERRCODE takes the values of R196, the geometry is the one its `k` gives,
the result registers keep their bounds, CMD holds the word in progress, and the registers hold their reset values while reset is
asserted. -/
def Obligations.StepKeepsTheInvariant : Prop := ∀ s t : State, Inv s → step s = .next t → Inv t

/-- The state after reset meets the invariant. (The values that R53 leaves open are the model's choices, log 4 to 6.) -/
def Obligations.ResetMeetsTheInvariant : Prop := Inv State.reset

/-! ## Host accesses to data memory -/

/-- R55, R68, R70: at an address of data memory, a host's data write outside every guarded window stores the byte and leaves every
other byte, and a data read outside every guarded destination window returns the byte; nothing else changes but what the host
last read, the model's own (log 16). Which windows are guarded is log 11; that a read may reach the source past the destination
of a NOISE.INJ in place is log 27. -/
def Obligations.HostDataAccessesOutsideTheWindows : Prop :=
  ∀ (s : State) (a : Nat) (v : Byte), s.mem.wf → a < 2 ^ s.platform.aw →
    ((∀ g ∈ s.guards, g.src.contains a = false ∧ g.dst.contains a = false) →
      ∃ m, applyInput (.memWrite a v) s = .next { s with mem := m } ∧ m.read a = v ∧ ∀ b, b ≠ a → m.read b = s.mem.read b) ∧
    ((∀ g ∈ s.guards, g.dst.contains a = false) →
      ∃ d, applyInput (.memRead a) s = .next { s with hostData := d } ∧ d.toNat = (s.mem.read a).toNat)
end

