-- ==== Sys2Proof/Laws/Bits.lean ====
section
/-! SUPPORT. The laws of the bit order: a stream's bits are those of R7, and a byte's eight bits make the byte. -/
namespace Sys2Proof.Machine

@[simp] theorem bitsOfByte_length (b : Byte) : (bitsOfByte b).length = 8 := by simp [bitsOfByte]

@[simp] theorem streamBits_nil : streamBits [] = [] := rfl

@[simp] theorem streamBits_cons (b : Byte) (B : List Byte) : streamBits (b :: B) = bitsOfByte b ++ streamBits B := by
  simp [streamBits]

@[simp] theorem streamBits_append (A B : List Byte) : streamBits (A ++ B) = streamBits A ++ streamBits B := by
  simp [streamBits]

@[simp] theorem streamBits_length (B : List Byte) : (streamBits B).length = 8 * B.length := by
  induction B with
  | nil => rfl
  | cons b B ih => simp [ih]; omega

/-- R7: a byte's bit `j` in stream order is its bit `7 - j`. -/
theorem getElem?_bitsOfByte (b : Byte) (j : Nat) : (bitsOfByte b)[j]? = if j < 8 then some (b.getLsbD (7 - j)) else none := by
  simp only [bitsOfByte, List.getElem?_map]
  split
  · rw [List.getElem?_range ‹_›]; rfl
  · rw [List.getElem?_eq_none (by simp; omega)]; rfl

/-- R7: the list of stream bits holds StreamBit(B, t) at index `t`. -/
theorem getElem?_streamBits (B : List Byte) (t : Nat) :
    (streamBits B)[t]? = if t < 8 * B.length then some (streamBit B t) else none := by
  induction B generalizing t with
  | nil => simp
  | cons b B ih =>
    rw [streamBits_cons]
    by_cases h : t < 8
    · rw [List.getElem?_append_left (by simpa using h), getElem?_bitsOfByte, if_pos h, if_pos (by simp; omega)]
      simp [streamBit, Nat.div_eq_of_lt h, Nat.mod_eq_of_lt h]
    · rw [List.getElem?_append_right (by simp; omega), ih]
      simp only [bitsOfByte_length, List.length_cons]
      by_cases h2 : t < 8 * (B.length + 1)
      · rw [if_pos (by omega), if_pos h2]
        obtain ⟨d, rfl⟩ : ∃ d, t = d + 8 := ⟨t - 8, by omega⟩
        simp [streamBit]
      · rw [if_neg (by omega), if_neg h2]

/-- The eight bits of a byte make the byte again. -/
@[simp] theorem byteOfBits_bitsOfByte (b : Byte) : byteOfBits (bitsOfByte b) = b := by
  revert b; decide

/-- The byte of eight bits has bit `7 - j` equal to the bit at index `j`. -/
theorem byteOfBits_getLsbD (f : Nat → Bool) {j : Nat} (h : j < 8) :
    (byteOfBits ((List.range 8).map f)).getLsbD (7 - j) = f j := by
  have key : ∀ b0 b1 b2 b3 b4 b5 b6 b7 : Bool,
      bitsOfByte (byteOfBits [b0, b1, b2, b3, b4, b5, b6, b7]) = [b0, b1, b2, b3, b4, b5, b6, b7] := by decide
  have h8 : (List.range 8).map f = [f 0, f 1, f 2, f 3, f 4, f 5, f 6, f 7] := rfl
  have := congrArg (fun l => l[j]?) (key (f 0) (f 1) (f 2) (f 3) (f 4) (f 5) (f 6) (f 7))
  rw [← h8] at this
  simp only [getElem?_bitsOfByte, if_pos h, List.getElem?_map, List.getElem?_range h] at this
  simpa using this

end Sys2Proof.Machine
end

