-- ==== Sys2Proof/Laws/Formats.lean ====
section
/-! SUPPORT. The laws of Huffman trees as their writers make them (R89): node counts, and the internal nodes in a part of a
serialisation. -/
namespace Sys2Proof.Machine

/-- A full binary tree has an odd number of nodes. -/
theorem HufTree.nodes_odd (t : HufTree) : t.nodes % 2 = 1 := by
  induction t with
  | leaf v => rfl
  | node l r il ir => simp only [HufTree.nodes]; omega

theorem HufTree.nodes_pos (t : HufTree) : 1 ≤ t.nodes := by
  have := t.nodes_odd
  omega

@[simp] theorem HufTree.internalBits_zero (t : HufTree) : t.internalBits 0 = 0 := by cases t <;> rfl

/-- The whole serialisation holds the bits of all internal nodes: each adds two nodes to the root. -/
theorem HufTree.internalBits_whole (t : HufTree) {n : Nat} (h : t.bits.length ≤ n) : 2 * t.internalBits n + 1 = t.nodes := by
  induction t generalizing n with
  | leaf v => rfl
  | node l r il ir =>
    cases n with
    | zero => simp [HufTree.bits] at h
    | succ n =>
      simp only [HufTree.bits, List.length_cons, List.length_append, Nat.add_le_add_iff_right] at h
      have hl := il (n := n) (by omega)
      have hr := ir (n := n - l.bits.length) (by omega)
      simp only [HufTree.internalBits, HufTree.nodes]
      omega

end Sys2Proof.Machine
end

