-- ==== Sys2Proof/Laws/Memory.lean ====
section
/-! SUPPORT. The laws of data memory: a read after a write, and that every operation keeps the canonical form. -/
namespace Sys2Proof.Machine

@[simp] theorem Memory.read_nil (a : Nat) : Memory.read [] a = Memory.unlisted := rfl

/-- An address below every listed one reads as unlisted. -/
theorem Memory.read_of_lt {m : Memory} {a : Nat} (h : ∀ c ∈ m, a < c.1) : m.read a = Memory.unlisted := by
  induction m with
  | nil => rfl
  | cons c m ih =>
    have := h c (by simp)
    simp only [Memory.read]
    rw [if_neg (by omega)]
    exact ih fun d hd => h d (by simp [hd])

theorem Memory.wf_cons {c : Host.Cell} {m : Memory} (h : Memory.wf (c :: m)) :
    c.2 ≠ Memory.unlisted ∧ (∀ d ∈ m, c.1 < d.1) ∧ Memory.wf m := by
  obtain ⟨hp, hz⟩ := h
  rw [List.pairwise_cons] at hp
  exact ⟨hz c (by simp), hp.1, hp.2, fun d hd => hz d (by simp [hd])⟩

/-- The keys of a memory after a write are old ones or the written one. -/
theorem Memory.mem_write {m : Memory} {a : Nat} {v : Byte} {c : Host.Cell} (h : c ∈ m.write a v) :
    c ∈ m ∨ c = (a, v) := by
  induction m with
  | nil => simp only [Memory.write] at h; split at h <;> simp_all
  | cons d m ih =>
    obtain ⟨k, w⟩ := d
    simp only [Memory.write] at h
    split at h
    · split at h <;> simp only [List.mem_cons] at h ⊢ <;> tauto
    · split at h
      · subst_vars
        split at h <;> simp only [List.mem_cons] at h ⊢ <;> tauto
      · rcases List.mem_cons.1 h with h | h
        · simp [h]
        · rcases ih h with h | h <;> simp [h]

/-- A write keeps the canonical form. -/
theorem Memory.write_wf {m : Memory} (a : Nat) (v : Byte) (h : m.wf) : (m.write a v).wf := by
  induction m with
  | nil => simp only [Memory.write]; split <;> simp_all [Memory.wf]
  | cons d m ih =>
    obtain ⟨k, w⟩ := d
    obtain ⟨hw, hlt, hm⟩ := Memory.wf_cons h
    simp only [Memory.write]
    split
    · split
      · exact h
      · rename_i hak hv
        refine ⟨List.pairwise_cons.2 ⟨?_, h.1⟩, ?_⟩
        · rintro c hc
          rcases List.mem_cons.1 hc with rfl | hc
          · exact hak
          · exact Nat.lt_trans hak (hlt c hc)
        · rintro c hc
          rcases List.mem_cons.1 hc with rfl | hc
          · exact hv
          · exact h.2 c hc
    · split
      · subst_vars
        split
        · exact hm
        · rename_i hv
          refine ⟨List.pairwise_cons.2 ⟨hlt, hm.1⟩, ?_⟩
          rintro c hc
          rcases List.mem_cons.1 hc with rfl | hc
          · exact hv
          · exact hm.2 c hc
      · have := ih hm
        refine ⟨List.pairwise_cons.2 ⟨?_, this.1⟩, ?_⟩
        · rintro c hc
          rcases Memory.mem_write hc with hc | rfl
          · exact hlt c hc
          · show k < a; omega
        · rintro c hc
          rcases List.mem_cons.1 hc with rfl | hc
          · exact hw
          · exact this.2 c hc

/-- A read after a write to the same address gives the value written. -/
theorem Memory.read_write_same {m : Memory} (a : Nat) (v : Byte) (h : m.wf) : (m.write a v).read a = v := by
  induction m with
  | nil => simp only [Memory.write]; split <;> simp_all [Memory.read]
  | cons d m ih =>
    obtain ⟨k, w⟩ := d
    obtain ⟨-, hlt, hm⟩ := Memory.wf_cons h
    simp only [Memory.write]
    split
    · split
      · rename_i hak hv
        rw [Memory.read_of_lt, hv]
        rintro c hc
        rcases List.mem_cons.1 hc with rfl | hc
        · exact hak
        · exact Nat.lt_trans hak (hlt c hc)
      · simp [Memory.read]
    · split
      · subst_vars
        split
        · rename_i hv; rw [Memory.read_of_lt hlt, hv]
        · simp [Memory.read]
      · simp only [Memory.read]
        rw [if_neg (by omega)]
        exact ih hm

/-- A write leaves every other address alone. -/
theorem Memory.read_write_other {m : Memory} {a b : Nat} (v : Byte) (hab : b ≠ a) : (m.write a v).read b = m.read b := by
  induction m with
  | nil =>
    simp only [Memory.write]
    split
    · rfl
    · simp only [Memory.read]; rw [if_neg (by omega)]
  | cons d m ih =>
    obtain ⟨k, w⟩ := d
    simp only [Memory.write]
    split
    · split
      · rfl
      · simp only [Memory.read]; rw [if_neg (by omega : ¬ a = b)]
    · split
      · subst_vars
        split <;> simp [Memory.read, Ne.symm hab]
      · simp only [Memory.read, ih]

@[simp] theorem Memory.readBytes_length (m : Memory) (a n : Nat) : (m.readBytes a n).length = n := by
  induction n generalizing a with
  | zero => rfl
  | succ n ih => simp [Memory.readBytes, ih]

/-- The bytes read are those at the addresses, in order. -/
theorem Memory.getElem?_readBytes (m : Memory) (a n i : Nat) :
    (m.readBytes a n)[i]? = if i < n then some (m.read (a + i)) else none := by
  induction n generalizing a i with
  | zero => simp [Memory.readBytes]
  | succ n ih =>
    cases i with
    | zero => simp [Memory.readBytes]
    | succ i => simp [Memory.readBytes, ih, Nat.add_right_comm, Nat.add_assoc]

/-- Memories that read the same on a range give the same bytes. -/
theorem Memory.readBytes_congr {m m' : Memory} {a n : Nat} (h : ∀ i, i < n → m.read (a + i) = m'.read (a + i)) :
    m.readBytes a n = m'.readBytes a n := by
  apply List.ext_getElem?
  intro i
  rw [Memory.getElem?_readBytes, Memory.getElem?_readBytes]
  split
  · rw [h i ‹_›]
  · rfl

/-- Writing bytes keeps the canonical form. -/
theorem Memory.writeBytes_wf {m : Memory} (a : Nat) (bytes : List Byte) (h : m.wf) : (m.writeBytes a bytes).wf := by
  induction bytes generalizing m a with
  | nil => exact h
  | cons v vs ih => exact ih (a + 1) (Memory.write_wf a v h)

/-- An address outside the written range reads as before. -/
theorem Memory.read_writeBytes_other (m : Memory) (a : Nat) (bytes : List Byte) {b : Nat}
    (hb : b < a ∨ a + bytes.length ≤ b) : (m.writeBytes a bytes).read b = m.read b := by
  induction bytes generalizing m a with
  | nil => rfl
  | cons v vs ih =>
    simp only [List.length_cons] at hb
    rw [Memory.writeBytes, ih _ _ (by omega), Memory.read_write_other v (by omega)]

/-- What memory reads as after bytes are written. -/
theorem Memory.read_writeBytes {m : Memory} (a : Nat) (bytes : List Byte) (h : m.wf) (b : Nat) :
    (m.writeBytes a bytes).read b = if a ≤ b ∧ b < a + bytes.length then bytes.getD (b - a) 0#8 else m.read b := by
  induction bytes generalizing m a with
  | nil => simp [Memory.writeBytes]
  | cons v vs ih =>
    rw [Memory.writeBytes, ih (a + 1) (Memory.write_wf a v h)]
    simp only [List.length_cons]
    by_cases hba : b = a
    · subst hba
      rw [if_neg (by omega), if_pos (by omega), Memory.read_write_same _ _ h]
      simp
    · by_cases hr : a + 1 ≤ b ∧ b < a + 1 + vs.length
      · rw [if_pos hr, if_pos (by omega), show b - a = (b - (a + 1)) + 1 by omega]
        simp
      · rw [if_neg hr, if_neg (by omega), Memory.read_write_other v hba]

/-- The keys of a memory after bytes are written are old ones or written ones. -/
theorem Memory.key_writeBytes {m : Memory} {a : Nat} {bytes : List Byte} {c : Host.Cell} (h : c ∈ m.writeBytes a bytes) :
    c ∈ m ∨ (a ≤ c.1 ∧ c.1 < a + bytes.length) := by
  induction bytes generalizing m a with
  | nil => exact .inl h
  | cons v vs ih =>
    rcases ih h with h | h
    · rcases Memory.mem_write h with h | rfl
      · exact .inl h
      · right; simp
    · right; simp only [List.length_cons]; omega

/-- An abandoned command's window keeps the canonical form. -/
theorem Memory.scramble_wf {m : Memory} (opens : Nat → Bool) (draw a n : Nat) (h : m.wf) :
    (m.scramble opens draw a n).wf := by
  induction n generalizing m a with
  | zero => exact h
  | succ n ih =>
    apply ih
    split
    · exact Memory.write_wf _ _ h
    · exact h

/-- An address that an abandoned command does not leave open reads as before. -/
theorem Memory.read_scramble_other (m : Memory) {opens : Nat → Bool} (draw a n : Nat) {b : Nat}
    (hb : (b < a ∨ a + n ≤ b) ∨ opens b = false) : (m.scramble opens draw a n).read b = m.read b := by
  induction n generalizing m a with
  | zero => rfl
  | succ n ih =>
    rw [Memory.scramble, ih _ _ (by rcases hb with hb | hb; · left; omega
                                    · exact .inr hb)]
    split
    · rename_i ho
      apply Memory.read_write_other
      rintro rfl
      rcases hb with hb | hb
      · omega
      · simp [hb] at ho
    · rfl

/-- An address that an abandoned command leaves open reads as the free byte of the abandonment. -/
theorem Memory.read_scramble_open {m : Memory} {opens : Nat → Bool} (draw a n : Nat) {b : Nat} (h : m.wf) (ha : a ≤ b)
    (hn : b < a + n) (ho : opens b = true) : (m.scramble opens draw a n).read b = Config.freeByte draw b := by
  induction n generalizing m a with
  | zero => omega
  | succ n ih =>
    rw [Memory.scramble]
    by_cases hab : b = a
    · subst hab
      rw [Memory.read_scramble_other _ _ _ _ (.inl (.inl (by omega))), if_pos ho, Memory.read_write_same _ _ h]
    · refine ih (a + 1) ?_ (by omega) (by omega)
      split
      · exact Memory.write_wf _ _ h
      · exact h

/-- The keys of a memory after an abandonment are old ones or open ones of the window. -/
theorem Memory.key_scramble {m : Memory} {opens : Nat → Bool} {draw a n : Nat} {c : Host.Cell}
    (h : c ∈ m.scramble opens draw a n) : c ∈ m ∨ opens c.1 = true := by
  induction n generalizing m a with
  | zero => exact .inl h
  | succ n ih =>
    rcases ih h with h | h
    · split at h
      · rename_i ho
        rcases Memory.mem_write h with h | rfl
        · exact .inl h
        · exact .inr ho
      · exact .inl h
    · exact .inr h

/-! ## The memory of an abandoned command (R223) -/

/-- Every byte left open is within the longer of the two lengths from the destination's first byte. -/
theorem Latched.leavesOpen_range {l : Latched} {i : Instr} {a : Nat} (h : l.leavesOpen i a = true) :
    l.dst.base ≤ a ∧ a < l.dst.base + max l.dst.len l.src.len := by
  unfold Latched.leavesOpen at h
  split at h
  · rename_i hp
    simp only [Latched.inPlace, Bool.and_eq_true, beq_iff_eq] at hp
    simp only [AddrRange.contains, Bool.or_eq_true, Bool.and_eq_true, decide_eq_true_eq] at h
    omega
  · simp only [AddrRange.contains, Bool.and_eq_true, decide_eq_true_eq] at h
    omega

theorem State.abandon_mem_busy {s : State} {i : Instr} (hp : s.regs.phase = .busy) (hd : decode s.latched.cmd = .ok i) :
    s.abandon.mem = s.mem.scramble (fun a => s.latched.leavesOpen i a && decide (a < s.platform.bytes)) s.draws
      s.latched.dst.base (max s.latched.dst.len s.latched.src.len) := by
  simp [State.abandon, hp, hd]

/-- What an abandonment leaves alone. -/
theorem State.read_abandon_other {s : State} {i : Instr} {a : Nat} (hp : s.regs.phase = .busy)
    (hd : decode s.latched.cmd = .ok i) (h : s.latched.leavesOpen i a = false) : s.abandon.mem.read a = s.mem.read a := by
  rw [State.abandon_mem_busy hp hd]
  exact Memory.read_scramble_other _ _ _ _ (.inr (by simp [h]))

/-- What it leaves open, free. -/
theorem State.read_abandon_open {s : State} {i : Instr} {a : Nat} (hp : s.regs.phase = .busy)
    (hd : decode s.latched.cmd = .ok i) (hw : s.mem.wf) (ha : a < s.platform.bytes) (h : s.latched.leavesOpen i a = true) :
    s.abandon.mem.read a = Config.freeByte s.draws a := by
  obtain ⟨h1, h2⟩ := Latched.leavesOpen_range h
  rw [State.abandon_mem_busy hp hd]
  exact Memory.read_scramble_open _ _ _ hw h1 h2 (by simp [h, ha])

end Sys2Proof.Machine
end

