-- ==== Sys2Proof/Laws/Operands.lean ====
section
/-! SUPPORT. What the checks on windows say, over every address (R107, R108), and what the start checks decide (R105). -/
namespace Sys2Proof.Machine

theorem AddrRange.contains_iff (r : AddrRange) (a : Nat) : r.contains a = true ↔ r.base ≤ a ∧ a < r.base + r.len := by
  simp [AddrRange.contains]

/-- R107: two ranges meet exactly when they share an address. -/
theorem AddrRange.meets_iff (r q : AddrRange) : r.meets q = true ↔ ∃ a, r.contains a = true ∧ q.contains a = true := by
  simp only [AddrRange.meets, AddrRange.contains_iff, Bool.and_eq_true, decide_eq_true_eq]
  constructor
  · rintro ⟨⟨⟨h1, h2⟩, h3⟩, h4⟩
    exact ⟨max r.base q.base, by omega, by omega⟩
  · rintro ⟨a, h1, h2⟩
    omega

/-- R108: a window passes the admission check exactly when each of its addresses is admitted. -/
theorem Platform.admitsAll_iff (p : Platform) (w : AddrRange) :
    p.admitsAll w = true ↔ ∀ i, i < w.len → p.admits (w.base + i) = true := by
  simp only [Platform.admitsAll, Platform.admits, List.all_eq_true, Bool.not_eq_true', Bool.eq_false_iff, ne_eq]
  constructor
  · intro h i hi r hr hc
    exact h r hr ((AddrRange.meets_iff r w).2 ⟨w.base + i, hc, (w.contains_iff _).2 (by omega)⟩)
  · intro h r hr hm
    obtain ⟨a, hc, hw⟩ := (AddrRange.meets_iff r w).1 hm
    rw [w.contains_iff] at hw
    exact h (a - w.base) (by omega) r hr (by rwa [Nat.add_sub_cancel' hw.1])

@[simp] theorem failsWith_eq_none {b : Bool} {e : ErrCode} : failsWith b e = none ↔ b = false := by
  cases b <;> simp [failsWith]

@[simp] theorem failsWith_eq_some {b : Bool} {e f : ErrCode} : failsWith b e = some f ↔ b = true ∧ e = f := by
  cases b <;> simp [failsWith]

/-- R105: the start checks pass exactly when each of them does. -/
theorem startChecks_eq_none (i : Instr) (s : State) : startChecks i s = none ↔
    paramCheck i s = none ∧ rangeCheck i s = none ∧ overlapCheck i s = none ∧ admitCheck i s = none ∧ lengthCheck i s = none := by
  simp [startChecks]

/-- A command whose start checks pass runs. -/
theorem State.runChecked_of_none {s : State} {i : Instr} (run : State → State) (h : startChecks i s = none) :
    s.runChecked i run = .next (run s) := by
  simp [State.runChecked, h]

/-- R109: a command that fails a start check completes with its error, and nothing else changes. -/
theorem State.runChecked_of_some {s : State} {i : Instr} {e : ErrCode} (run : State → State) (h : startChecks i s = some e) :
    s.runChecked i run = .next (s.completeError e) := by
  simp [State.runChecked, h]

/-- The two ways a checked command completes. -/
theorem State.runChecked_cases (s : State) (i : Instr) (run : State → State) :
    (startChecks i s = none ∧ s.runChecked i run = .next (run s)) ∨
      ∃ e, startChecks i s = some e ∧ s.runChecked i run = .next (s.completeError e) := by
  cases h : startChecks i s with
  | none => exact .inl ⟨rfl, State.runChecked_of_none run h⟩
  | some e => exact .inr ⟨e, rfl, State.runChecked_of_some run h⟩

end Sys2Proof.Machine
end

