-- ==== Sys2Proof/Laws/PerInstr.lean ====
section
/-! SUPPORT. Statements about every command as syntax, one lemma for each constructor. -/
namespace Sys2Proof.Laws.EncodedWord

/-- The word of a command that has an encoding matches the row of its operation in R81, and its operand fields hold the command's
operands (R79, R80). -/
def Statement (i : Instr) : Prop :=
  i.wellFormed = true → ∃ r ∈ opcodeTable, r.selects (encode i) = true ∧ r.op.instr (encode i) = i

theorem nop : Statement .nop := fun _ => ⟨⟨.nop, 0x00000000#32, 0xFFFFFFFF#32⟩, by decide, by decide, by decide⟩

theorem hufDec : Statement .hufDec := fun _ => ⟨⟨.hufDec, 0x00000001#32, 0xFFFFFFFF#32⟩, by decide, by decide, by decide⟩

theorem rleDec : Statement .rleDec := fun _ => ⟨⟨.rleDec, 0x00000002#32, 0xFFFFFFFF#32⟩, by decide, by decide, by decide⟩

/-- IMM16 of the assembled word is `k`, and the low half is 0x0003. -/
theorem hamCfg (k : Nat) : Statement (.hamCfg k) := by
  intro h
  have hk : k < 65536 := by simp only [Instr.wellFormed, immFits, decide_eq_true_eq] at h; omega
  refine ⟨⟨.hamCfg, 0x00000003#32, 0x0000FFFF#32⟩, by decide, ?_, ?_⟩
  · simp only [OpcodeRow.selects, encode, beq_iff_eq]
    apply BitVec.eq_of_getLsbD_eq
    intro j hj
    simp only [BitVec.getLsbD_and, BitVec.getLsbD_or, BitVec.getLsbD_shiftLeft]
    by_cases h16 : j < 16
    · simp only [h16, decide_true, Bool.not_true, Bool.and_false, Bool.false_and, Bool.false_or]
      interval_cases j <;> decide
    · have : (0x0000FFFF#32).getLsbD j = false ∧ (3#32).getLsbD j = false := by
        have : 16 ≤ j := by omega
        interval_cases j <;> decide
      simp [this]
  · simp only [Op.instr, encode, fieldImm]
    congr 1
    apply Nat.eq_of_testBit_eq
    intro j
    rw [BitVec.testBit_toNat, BitVec.getLsbD_extractLsb']
    by_cases h16 : j < 16
    · have h3 : (3#32).getLsbD (16 + j) = false := by interval_cases j <;> decide
      rw [BitVec.getLsbD_or, BitVec.getLsbD_shiftLeft, h3, BitVec.getLsbD_ofNat, decide_eq_true h16,
        decide_eq_true (by omega : 16 + j < 32), decide_eq_false (by omega : ¬ 16 + j < 16), Nat.add_sub_cancel_left,
        decide_eq_true (by omega : j < 32)]
      simp
    · have : k < 2 ^ j := Nat.lt_of_lt_of_le hk (Nat.pow_le_pow_right (n := 2) (i := 16) (by decide) (by omega))
      simp [h16, Nat.testBit_lt_two_pow this]

theorem hamSyn : Statement .hamSyn := fun _ => ⟨⟨.hamSyn, 0x00000004#32, 0xFFFFFFFF#32⟩, by decide, by decide, by decide⟩

theorem noiseInj (ent : Bool) : Statement (.noiseInj ent) := fun _ =>
  ⟨⟨.noiseInj, 0x00000005#32, 0xFFFFFEFF#32⟩, by decide, by cases ent <;> decide, by cases ent <;> decide⟩

end Sys2Proof.Laws.EncodedWord
end

