-- ==== Sys2Proof/Laws/State.lean ====
section
/-! SUPPORT. One lemma for each field of State and each update of it, so that no proof unfolds a record update. -/
namespace Sys2Proof.Machine

@[simp] theorem State.completeDone_regs (s : State) : s.completeDone.regs = { s.regs with phase := .idle, done := true } := rfl
@[simp] theorem State.completeDone_latched (s : State) : s.completeDone.latched = s.latched := rfl
@[simp] theorem State.completeDone_scratch (s : State) : s.completeDone.scratch = s.scratch := rfl
@[simp] theorem State.completeDone_mem (s : State) : s.completeDone.mem = s.mem := rfl
@[simp] theorem State.completeDone_resetAsserted (s : State) : s.completeDone.resetAsserted = s.resetAsserted := rfl
@[simp] theorem State.completeDone_platform (s : State) : s.completeDone.platform = s.platform := rfl
@[simp] theorem State.completeDone_inputs (s : State) : s.completeDone.inputs = s.inputs := rfl
@[simp] theorem State.completeDone_guards (s : State) : s.completeDone.guards = s.guards := rfl
@[simp] theorem State.completeDone_hostData (s : State) : s.completeDone.hostData = s.hostData := rfl
@[simp] theorem State.completeDone_draws (s : State) : s.completeDone.draws = s.draws := rfl

@[simp] theorem State.completeError_regs (s : State) (e : ErrCode) : (s.completeError e).regs = { s.regs with phase := .idle, err := true, errcode := e.code } := rfl
@[simp] theorem State.completeError_latched (s : State) (e : ErrCode) : (s.completeError e).latched = s.latched := rfl
@[simp] theorem State.completeError_scratch (s : State) (e : ErrCode) : (s.completeError e).scratch = s.scratch := rfl
@[simp] theorem State.completeError_mem (s : State) (e : ErrCode) : (s.completeError e).mem = s.mem := rfl
@[simp] theorem State.completeError_resetAsserted (s : State) (e : ErrCode) : (s.completeError e).resetAsserted = s.resetAsserted := rfl
@[simp] theorem State.completeError_platform (s : State) (e : ErrCode) : (s.completeError e).platform = s.platform := rfl
@[simp] theorem State.completeError_inputs (s : State) (e : ErrCode) : (s.completeError e).inputs = s.inputs := rfl
@[simp] theorem State.completeError_guards (s : State) (e : ErrCode) : (s.completeError e).guards = s.guards := rfl
@[simp] theorem State.completeError_hostData (s : State) (e : ErrCode) : (s.completeError e).hostData = s.hostData := rfl
@[simp] theorem State.completeError_draws (s : State) (e : ErrCode) : (s.completeError e).draws = s.draws := rfl

@[simp] theorem State.dropCmd_regs (s : State) : s.dropCmd.regs = { s.regs with cmdOvr := true } := rfl
@[simp] theorem State.dropCmd_latched (s : State) : s.dropCmd.latched = s.latched := rfl
@[simp] theorem State.dropCmd_scratch (s : State) : s.dropCmd.scratch = s.scratch := rfl
@[simp] theorem State.dropCmd_mem (s : State) : s.dropCmd.mem = s.mem := rfl
@[simp] theorem State.dropCmd_resetAsserted (s : State) : s.dropCmd.resetAsserted = s.resetAsserted := rfl
@[simp] theorem State.dropCmd_platform (s : State) : s.dropCmd.platform = s.platform := rfl
@[simp] theorem State.dropCmd_inputs (s : State) : s.dropCmd.inputs = s.inputs := rfl
@[simp] theorem State.dropCmd_guards (s : State) : s.dropCmd.guards = s.guards := rfl
@[simp] theorem State.dropCmd_hostData (s : State) : s.dropCmd.hostData = s.hostData := rfl
@[simp] theorem State.dropCmd_draws (s : State) : s.dropCmd.draws = s.draws := rfl

@[simp] theorem State.accept_regs (s : State) (w : Word) : (s.accept w).regs = s.regs.accept w := rfl
@[simp] theorem State.accept_latched (s : State) (w : Word) : (s.accept w).latched = s.regs.latch w := rfl
@[simp] theorem State.accept_scratch (s : State) (w : Word) : (s.accept w).scratch = s.scratch := rfl
@[simp] theorem State.accept_mem (s : State) (w : Word) : (s.accept w).mem = s.mem := rfl
@[simp] theorem State.accept_resetAsserted (s : State) (w : Word) : (s.accept w).resetAsserted = s.resetAsserted := rfl
@[simp] theorem State.accept_platform (s : State) (w : Word) : (s.accept w).platform = s.platform := rfl
@[simp] theorem State.accept_inputs (s : State) (w : Word) : (s.accept w).inputs = s.inputs := rfl
@[simp] theorem State.accept_guards (s : State) (w : Word) : (s.accept w).guards = s.guards ++ (s.regs.latch w).guards := rfl
@[simp] theorem State.accept_hostData (s : State) (w : Word) : (s.accept w).hostData = s.hostData := rfl
@[simp] theorem State.accept_draws (s : State) (w : Word) : (s.accept w).draws = s.draws := rfl

@[simp] theorem State.writeDst_regs (s : State) (bytes : List Byte) : (s.writeDst bytes).regs = s.regs := rfl
@[simp] theorem State.writeDst_latched (s : State) (bytes : List Byte) : (s.writeDst bytes).latched = s.latched := rfl
@[simp] theorem State.writeDst_scratch (s : State) (bytes : List Byte) : (s.writeDst bytes).scratch = s.scratch := rfl
@[simp] theorem State.writeDst_mem (s : State) (bytes : List Byte) : (s.writeDst bytes).mem = s.mem.writeBytes s.latched.dst.base bytes := rfl
@[simp] theorem State.writeDst_resetAsserted (s : State) (bytes : List Byte) : (s.writeDst bytes).resetAsserted = s.resetAsserted := rfl
@[simp] theorem State.writeDst_platform (s : State) (bytes : List Byte) : (s.writeDst bytes).platform = s.platform := rfl
@[simp] theorem State.writeDst_inputs (s : State) (bytes : List Byte) : (s.writeDst bytes).inputs = s.inputs := rfl
@[simp] theorem State.writeDst_guards (s : State) (bytes : List Byte) : (s.writeDst bytes).guards = s.guards := rfl
@[simp] theorem State.writeDst_hostData (s : State) (bytes : List Byte) : (s.writeDst bytes).hostData = s.hostData := rfl
@[simp] theorem State.writeDst_draws (s : State) (bytes : List Byte) : (s.writeDst bytes).draws = s.draws := rfl

@[simp] theorem State.complete_latched (s : State) (e : Option ErrCode) : (s.complete e).latched = s.latched := by cases e <;> rfl
@[simp] theorem State.complete_scratch (s : State) (e : Option ErrCode) : (s.complete e).scratch = s.scratch := by cases e <;> rfl
@[simp] theorem State.complete_mem (s : State) (e : Option ErrCode) : (s.complete e).mem = s.mem := by cases e <;> rfl
@[simp] theorem State.complete_resetAsserted (s : State) (e : Option ErrCode) : (s.complete e).resetAsserted = s.resetAsserted := by cases e <;> rfl
@[simp] theorem State.complete_platform (s : State) (e : Option ErrCode) : (s.complete e).platform = s.platform := by cases e <;> rfl
@[simp] theorem State.complete_inputs (s : State) (e : Option ErrCode) : (s.complete e).inputs = s.inputs := by cases e <;> rfl
@[simp] theorem State.complete_guards (s : State) (e : Option ErrCode) : (s.complete e).guards = s.guards := by cases e <;> rfl
@[simp] theorem State.complete_hostData (s : State) (e : Option ErrCode) : (s.complete e).hostData = s.hostData := by cases e <;> rfl
@[simp] theorem State.complete_draws (s : State) (e : Option ErrCode) : (s.complete e).draws = s.draws := by cases e <;> rfl

@[simp] theorem State.complete_none (s : State) : s.complete none = s.completeDone := rfl
@[simp] theorem State.complete_some (s : State) (e : ErrCode) : s.complete (some e) = s.completeError e := rfl

@[simp] theorem State.abandon_regs (s : State) : s.abandon.regs = s.regs := by unfold State.abandon; split <;> rfl
@[simp] theorem State.abandon_latched (s : State) : s.abandon.latched = s.latched := by unfold State.abandon; split <;> rfl
@[simp] theorem State.abandon_scratch (s : State) : s.abandon.scratch = s.scratch := by unfold State.abandon; split <;> rfl
@[simp] theorem State.abandon_resetAsserted (s : State) : s.abandon.resetAsserted = s.resetAsserted := by unfold State.abandon; split <;> rfl
@[simp] theorem State.abandon_platform (s : State) : s.abandon.platform = s.platform := by unfold State.abandon; split <;> rfl
@[simp] theorem State.abandon_inputs (s : State) : s.abandon.inputs = s.inputs := by unfold State.abandon; split <;> rfl
@[simp] theorem State.abandon_guards (s : State) : s.abandon.guards = s.guards := by unfold State.abandon; split <;> rfl
@[simp] theorem State.abandon_hostData (s : State) : s.abandon.hostData = s.hostData := by unfold State.abandon; split <;> rfl

@[simp] theorem State.resetBlock_regs (s : State) : s.resetBlock.regs = Regs.reset := rfl
@[simp] theorem State.resetBlock_latched (s : State) : s.resetBlock.latched = Latched.reset := rfl
@[simp] theorem State.resetBlock_scratch (s : State) : s.resetBlock.scratch = Scratch.reset := rfl
@[simp] theorem State.resetBlock_mem (s : State) : s.resetBlock.mem = s.abandon.mem := rfl
@[simp] theorem State.resetBlock_resetAsserted (s : State) : s.resetBlock.resetAsserted = s.resetAsserted := s.abandon_resetAsserted
@[simp] theorem State.resetBlock_platform (s : State) : s.resetBlock.platform = s.platform := s.abandon_platform
@[simp] theorem State.resetBlock_inputs (s : State) : s.resetBlock.inputs = s.inputs := s.abandon_inputs
@[simp] theorem State.resetBlock_guards (s : State) : s.resetBlock.guards = [] := rfl
@[simp] theorem State.resetBlock_hostData (s : State) : s.resetBlock.hostData = s.hostData := s.abandon_hostData
@[simp] theorem State.resetBlock_draws (s : State) : s.resetBlock.draws = s.abandon.draws := rfl

/-- An idle block has no command to abandon. -/
theorem State.abandon_idle {s : State} (h : s.regs.phase = .idle) : s.abandon = s := by
  unfold State.abandon; rw [h]

/-- The updates of a unit's completion, each over the fields a later proof asks for. -/
@[simp] theorem State.finishCfg_eq (s : State) (k : Nat) : s.finishCfg k =
    { s with regs := { s.regs with
        phase := .idle, done := true, hamK := BitVec.ofNat 16 k, hamR := BitVec.ofNat 8 (parityBits k)
        hamN := BitVec.ofNat 16 (k + parityBits k), syndrome := 0#16 } } := rfl

@[simp] theorem State.finishSyn_eq (s : State) (syn : Nat) : s.finishSyn syn =
    { s with regs := { s.regs with phase := .idle, done := true, syndrome := BitVec.ofNat 16 syn } } := rfl

@[simp] theorem State.finishRle_latched (s : State) (r : RleRun) : (s.finishRle r).latched = s.latched := by simp [State.finishRle]
@[simp] theorem State.finishRle_resetAsserted (s : State) (r : RleRun) : (s.finishRle r).resetAsserted = s.resetAsserted := by simp [State.finishRle]
@[simp] theorem State.finishRle_platform (s : State) (r : RleRun) : (s.finishRle r).platform = s.platform := by simp [State.finishRle]
@[simp] theorem State.finishRle_inputs (s : State) (r : RleRun) : (s.finishRle r).inputs = s.inputs := by simp [State.finishRle]
@[simp] theorem State.finishRle_guards (s : State) (r : RleRun) : (s.finishRle r).guards = s.guards := by simp [State.finishRle]
@[simp] theorem State.finishRle_hostData (s : State) (r : RleRun) : (s.finishRle r).hostData = s.hostData := by simp [State.finishRle]
@[simp] theorem State.finishRle_draws (s : State) (r : RleRun) : (s.finishRle r).draws = s.draws := by simp [State.finishRle]
@[simp] theorem State.finishRle_mem (s : State) (r : RleRun) :
    (s.finishRle r).mem = s.mem.writeBytes s.latched.dst.base r.out := by simp [State.finishRle]

@[simp] theorem State.finishHuf_latched (s : State) (r : HufRun) : (s.finishHuf r).latched = s.latched := by simp [State.finishHuf]
@[simp] theorem State.finishHuf_resetAsserted (s : State) (r : HufRun) : (s.finishHuf r).resetAsserted = s.resetAsserted := by simp [State.finishHuf]
@[simp] theorem State.finishHuf_platform (s : State) (r : HufRun) : (s.finishHuf r).platform = s.platform := by simp [State.finishHuf]
@[simp] theorem State.finishHuf_inputs (s : State) (r : HufRun) : (s.finishHuf r).inputs = s.inputs := by simp [State.finishHuf]
@[simp] theorem State.finishHuf_guards (s : State) (r : HufRun) : (s.finishHuf r).guards = s.guards := by simp [State.finishHuf]
@[simp] theorem State.finishHuf_hostData (s : State) (r : HufRun) : (s.finishHuf r).hostData = s.hostData := by simp [State.finishHuf]
@[simp] theorem State.finishHuf_draws (s : State) (r : HufRun) : (s.finishHuf r).draws = s.draws := by simp [State.finishHuf]
@[simp] theorem State.finishHuf_mem (s : State) (r : HufRun) :
    (s.finishHuf r).mem = s.mem.writeBytes s.latched.dst.base r.out := by simp [State.finishHuf]

@[simp] theorem State.finishNoise_latched (s : State) (ent : Bool) : (s.finishNoise ent).latched = s.latched := rfl
@[simp] theorem State.finishNoise_resetAsserted (s : State) (ent : Bool) : (s.finishNoise ent).resetAsserted = s.resetAsserted := rfl
@[simp] theorem State.finishNoise_platform (s : State) (ent : Bool) : (s.finishNoise ent).platform = s.platform := rfl
@[simp] theorem State.finishNoise_inputs (s : State) (ent : Bool) : (s.finishNoise ent).inputs = s.inputs := rfl
@[simp] theorem State.finishNoise_guards (s : State) (ent : Bool) : (s.finishNoise ent).guards = s.guards := rfl
@[simp] theorem State.finishNoise_hostData (s : State) (ent : Bool) : (s.finishNoise ent).hostData = s.hostData := rfl

end Sys2Proof.Machine
end

