-- ==== Sys2Proof/Laws/Step.lean ====
section
/-! SUPPORT. Once and for all, what the completion of a command, the engine's turn, a register access and a step can do. -/
namespace Sys2Proof.Machine

/-- What a command whose start checks pass does (R104): the one list of the units' completions. -/
def runOf (i : Instr) (s : State) : State :=
  match i with
  | .nop => s.completeDone
  | .hufDec => s.finishHuf (hufDecode s.srcBytes s.latched.dst.len)
  | .rleDec => s.finishRle (rleDecode s.srcBytes s.latched.dst.len)
  | .hamCfg k => s.finishCfg k
  | .hamSyn => s.finishSyn (syndromeOf s.srcBytes s.latched.hamBitoff.toNat s.regs.hamN.toNat)
  | .noiseInj ent => s.finishNoise ent

theorem exec_eq_runChecked (i : Instr) (s : State) : exec i s = s.runChecked i (runOf i) := by
  cases i <;> rfl

/-- A command whose start checks pass does what its unit computes. -/
theorem exec_of_none {i : Instr} {s : State} (h : startChecks i s = none) : exec i s = .next (runOf i s) := by
  rw [exec_eq_runChecked, State.runChecked_of_none _ h]

/-- A command that fails a start check completes with its error. -/
theorem exec_of_some {i : Instr} {s : State} {e : ErrCode} (h : startChecks i s = some e) :
    exec i s = .next (s.completeError e) := by
  rw [exec_eq_runChecked, State.runChecked_of_some _ h]

/-- What a completion answers: the error of a start check, or what the unit computes; never a fault, never a refusal. -/
theorem exec_cases {i : Instr} {s : State} {o : Outcome} (h : exec i s = o) :
    (startChecks i s = none ∧ o = .next (runOf i s)) ∨ ∃ e, startChecks i s = some e ∧ o = .next (s.completeError e) := by
  subst h
  rw [exec_eq_runChecked]
  exact State.runChecked_cases s i (runOf i)

/-- The fields that no completion changes. -/
theorem exec_frame {i : Instr} {s t : State} (h : exec i s = .next t) :
    t.latched = s.latched ∧ t.resetAsserted = s.resetAsserted ∧ t.platform = s.platform ∧ t.inputs = s.inputs ∧
      t.guards = s.guards ∧ t.hostData = s.hostData := by
  rcases exec_cases h with ⟨-, h⟩ | ⟨e, -, h⟩ <;> cases h
  · cases i <;> simp [runOf]
  · simp

/-- What the engine's turn does: nothing, ILLEGAL_CMD, or the completion of the latched command. -/
theorem engineTurn_cases {s : State} {o : Outcome} (h : engineTurn s = o) :
    (s.regs.phase = .idle ∧ o = .next s) ∨
      (s.regs.phase = .busy ∧ (∃ r, decode s.latched.cmd = .error r) ∧ o = .next (s.completeError .illegalCmd)) ∨
      (s.regs.phase = .busy ∧ ∃ i, decode s.latched.cmd = .ok i ∧ exec i s = o) := by
  subst h
  unfold engineTurn
  cases hp : s.regs.phase with
  | idle => exact .inl ⟨rfl, rfl⟩
  | busy =>
    cases hd : decode s.latched.cmd with
    | ok i => exact .inr (.inr ⟨rfl, i, rfl, rfl⟩)
    | error r => exact .inr (.inl ⟨rfl, ⟨r, rfl⟩, rfl⟩)

/-- The offset a register access reaches is inside the window and word-aligned, and reset is released. -/
theorem State.regOffset_ok {s : State} {addr bytes o : Nat} (h : s.regOffset addr bytes = .ok o) :
    s.resetAsserted = false ∧ bytes = 4 ∧ addr = s.platform.regBase + o ∧ o < Config.windowBytes ∧ o % 4 = 0 := by
  unfold State.regOffset at h
  split at h
  · cases h
  · split at h
    · cases h
    · split at h
      · cases h
      · cases h
        rename_i h1 h2 h3
        simp only [not_or, Nat.not_lt, Nat.not_le, ne_eq, not_not] at h1 h3
        exact ⟨by simpa using h2, h3.1, by omega, by omega, h3.2⟩

/-- Every register has the offset of the map, and no other register has it (R20). -/
@[simp] theorem Reg.ofOffset_offset (r : Reg) : Reg.ofOffset r.offset = some r := by cases r <;> rfl

/-- A 32-bit access at a register's address reaches the register. -/
theorem State.regOffset_reg {s : State} (r : Reg) (h : s.resetAsserted = false) :
    s.regOffset (s.platform.regBase + r.offset) 4 = .ok r.offset := by
  have hr : r.offset < 0x1000 ∧ r.offset % 4 = 0 := by cases r <;> decide
  unfold State.regOffset
  rw [if_neg (by simp only [Config.windowBytes]; omega), if_neg (by simp [h]), if_neg (by simp; omega)]
  simp

/-- A host write to a register is its effect. -/
theorem hostRegWrite_reg {s : State} (r : Reg) (v : Word) (h : s.resetAsserted = false) :
    hostRegWrite s (s.platform.regBase + r.offset) 4 v = .next (s.writeReg r v) := by
  simp [hostRegWrite, State.regOffset_reg r h, State.writeAt]

/-- A host read of a register returns it. -/
theorem hostRegRead_reg {s : State} (r : Reg) (h : s.resetAsserted = false) :
    hostRegRead s (s.platform.regBase + r.offset) 4 =
      .next { s with hostData := s.regs.read r, guards := s.guardsAfterRead r.offset } := by
  simp [hostRegRead, State.regOffset_reg r h, Regs.readAt]

/-- A write at an offset is a write of the register there, or nothing. -/
theorem State.writeAt_cases (s : State) (o : Nat) (v : Word) :
    s.writeAt o v = s ∨ ∃ r, Reg.ofOffset o = some r ∧ s.writeAt o v = s.writeReg r v := by
  unfold State.writeAt
  cases h : Reg.ofOffset o with
  | none => exact .inl rfl
  | some r => exact .inr ⟨r, rfl, rfl⟩

/-- A write of a register never changes the platform, the reset input, the actions to come or what the host last read. -/
theorem State.writeReg_frame (s : State) (r : Reg) (v : Word) :
    (s.writeReg r v).platform = s.platform ∧ (s.writeReg r v).resetAsserted = s.resetAsserted ∧
      (s.writeReg r v).inputs = s.inputs ∧ (s.writeReg r v).hostData = s.hostData := by
  cases r <;> simp only [State.writeReg, State.issue] <;> (try split) <;> simp

/-- A step is the next action; with none to come, the engine's turn. -/
theorem step_nil {s : State} (h : s.inputs = []) : step s = engineTurn s := by simp [step, h]

theorem step_cons {s : State} {e : Input} {rest : List Input} (h : s.inputs = e :: rest) :
    step s = applyInput e { s with inputs := rest } := by simp [step, h]

end Sys2Proof.Machine
end

