-- ==== Sys2Proof/Laws/Units.lean ====
section
/-! SUPPORT. One law, or a few, for each function of the four units: the bounds of what they write, and what their results are. -/
namespace Sys2Proof.Machine

/-! ## The run-length decoder -/

/-- A record takes at least its count byte from the stream. -/
theorem rleRecord_rest_length {b : Byte} {bs : List Byte} {r : RleRecord} (h : rleRecord b bs = some r) :
    r.rest.length ≤ bs.length := by
  simp only [rleRecord] at h
  split at h
  · split at h
    · cases h
    · cases h; simp
  · split at h
    · cases h
    · cases h; simp

/-- A record stands for at most 64 bytes for each byte of the stream it takes. -/
theorem rleRecord_bytes_length {b : Byte} {bs : List Byte} {r : RleRecord} (h : rleRecord b bs = some r) :
    r.bytes.length + 64 * r.rest.length ≤ 64 * (bs.length + 1) := by
  simp only [rleRecord] at h
  split at h
  · split at h
    · cases h
    · cases h; simp; omega
  · rename_i hc
    split at h
    · cases h
    · cases h
      have : b.toInt ≤ 0 := by omega
      simp; omega

/-- The bound on the number of records is never met: any bound that is long enough gives the same run. -/
theorem rleLoop_bound {n m pos room : Nat} {bs : List Byte} (hn : bs.length ≤ n) (hm : bs.length ≤ m) :
    rleLoop n pos room bs = rleLoop m pos room bs := by
  induction n generalizing m pos room bs with
  | zero =>
    obtain rfl : bs = [] := List.eq_nil_of_length_eq_zero (by omega)
    cases m <;> rfl
  | succ n ih =>
    cases bs with
    | nil => cases m <;> rfl
    | cons b bs =>
      cases m with
      | zero => simp at hm
      | succ m =>
        simp only [List.length_cons, Nat.add_le_add_iff_right] at hn hm
        simp only [rleLoop]
        cases hr : rleRecord b bs with
        | none => rfl
        | some r =>
          have := rleRecord_rest_length hr
          simp only
          split
          · rfl
          · rw [ih (m := m) (by omega) (by omega)]

/-- The decoder never writes more than there is room for. -/
theorem rleLoop_out_length (n pos room : Nat) (bs : List Byte) : (rleLoop n pos room bs).out.length ≤ room := by
  induction n generalizing pos room bs with
  | zero => simp [rleLoop]
  | succ n ih =>
    cases bs with
    | nil => simp [rleLoop]
    | cons b bs =>
      simp only [rleLoop]
      cases rleRecord b bs with
      | none => simp
      | some r =>
        simp only
        split
        · simp
        · have := ih (pos + r.len) (room - r.bytes.length) r.rest
          simp; omega

theorem rleDecode_out_length (src : List Byte) (cap : Nat) : (rleDecode src cap).out.length ≤ cap :=
  rleLoop_out_length _ _ _ _

/-! ## The Huffman decoder -/

/-- R145: the arena never holds more than NODE_MAX nodes. -/
theorem hufParse_arena_length (bits : List Bool) (stack : List Nat) (arena : List HufNode) (h : arena.length ≤ Config.nodeMax) :
    (hufParse bits stack arena).arena.length ≤ Config.nodeMax := by
  fun_induction hufParse bits stack arena with
  | case1 => exact h
  | case2 => exact h
  | case3 bits x stack arena hn ih => exact ih (by simp; omega)
  | case4 b7 b6 b5 b4 b3 b2 b1 b0 bits x stack arena ih => exact ih (by simpa using h)
  | case5 => exact h

/-- The decoder never writes more than there is room for. -/
theorem hufWalk_out_length (arena : List HufNode) (x room : Nat) (bits : List Bool) :
    (hufWalk arena x room bits).out.length ≤ room := by
  induction bits generalizing x room with
  | nil => simp only [hufWalk]; split <;> simp
  | cons b bits ih =>
    simp only [hufWalk]
    split
    · cases room with
      | zero => simp
      | succ room => simpa using ih 0 room
    · exact ih _ room

theorem hufBody_out_length (pad : Nat) (bits : List Bool) (cap : Nat) : (hufBody pad bits cap).out.length ≤ cap := by
  simp only [hufBody]
  split
  · simp
  · split
    · exact hufWalk_out_length _ _ _ _
    · simp

theorem hufDecode_out_length (src : List Byte) (cap : Nat) : (hufDecode src cap).out.length ≤ cap := by
  simp only [hufDecode]
  split
  · simp
  · split
    · simp
    · split
      · simp
      · exact hufBody_out_length _ _ _

theorem hufDecode_nodes (src : List Byte) (cap : Nat) : (hufDecode src cap).work.arena.length ≤ Config.nodeMax := by
  have hb : ∀ pad bits, (hufBody pad bits cap).work.arena.length ≤ Config.nodeMax := by
    intro pad bits
    have := hufParse_arena_length bits [0] [.unset] (by decide)
    simp only [hufBody]
    split
    · exact this
    · split <;> exact this
  simp only [hufDecode]
  split
  · simp
  · split
    · simp
    · split
      · simp
      · exact hb _ _

theorem hufDecode_pad (src : List Byte) (cap : Nat) : (hufDecode src cap).pad < 256 := by
  simp only [hufDecode]
  split
  · simp
  · split
    · simp; omega
    · split
      · simp; omega
      · simp only [hufBody]
        split
        · simp; omega
        · split <;> (simp; omega)

/-! ## The Hamming unit -/

theorem parityBitsFrom_spec {k n r : Nat} (h : ∃ q, r ≤ q ∧ q ≤ r + n ∧ 2 ^ q ≥ k + q + 1) :
    2 ^ parityBitsFrom k n r ≥ k + parityBitsFrom k n r + 1 ∧ r ≤ parityBitsFrom k n r ∧
      ∀ q, r ≤ q → q < parityBitsFrom k n r → 2 ^ q < k + q + 1 := by
  induction n generalizing r with
  | zero =>
    obtain ⟨q, h1, h2, h3⟩ := h
    obtain rfl : q = r := by omega
    exact ⟨h3, Nat.le_refl _, fun q h4 h5 => absurd h5 (by simp [parityBitsFrom]; omega)⟩
  | succ n ih =>
    simp only [parityBitsFrom]
    split
    · rename_i hr
      exact ⟨hr, Nat.le_refl _, fun q h4 h5 => absurd h5 (by omega)⟩
    · rename_i hr
      obtain ⟨q, h1, h2, h3⟩ := h
      have hq : q ≠ r := by rintro rfl; exact hr h3
      obtain ⟨i1, i2, i3⟩ := ih (r := r + 1) ⟨q, by omega, by omega, h3⟩
      refine ⟨i1, by omega, fun p h4 h5 => ?_⟩
      by_cases hp : p = r
      · subst hp; omega
      · exact i3 p (by omega) h5

/-- R121: `parityBits k` is the smallest integer, from 1 on, satisfying the inequality. -/
theorem parityBits_spec (k : Nat) : 2 ^ parityBits k ≥ k + parityBits k + 1 ∧ 1 ≤ parityBits k ∧
    ∀ q, 1 ≤ q → q < parityBits k → 2 ^ q < k + q + 1 := by
  apply parityBitsFrom_spec
  refine ⟨k + 1, by omega, by omega, ?_⟩
  have : k < 2 ^ k := Nat.lt_two_pow_self
  rw [Nat.pow_succ]; omega

/-- The smallest is unique. -/
theorem parityBits_unique {k r : Nat} (h1 : 1 ≤ r) (h2 : 2 ^ r ≥ k + r + 1) (h3 : ∀ q, 1 ≤ q → q < r → 2 ^ q < k + q + 1) :
    parityBits k = r := by
  obtain ⟨p2, p1, p3⟩ := parityBits_spec k
  rcases Nat.lt_trichotomy (parityBits k) r with h | h | h
  · have := h3 _ p1 h; omega
  · exact h
  · have := p3 _ h1 h; omega

/-- R121: a legal `k` has at most 16 parity bits. -/
theorem parityBits_le {k : Nat} (h : k ≤ Config.hamKMax) : parityBits k ≤ 16 := by
  by_contra hc
  have := (parityBits_spec k).2.2 16 (by omega) (by omega)
  simp only [Config.hamKMax] at h
  omega

/-- Bit `j` of the syndrome is the parity of the block's ones at positions whose index has bit `j` set (R124). -/
theorem syndromeOf_testBit (src : List Byte) (off n j : Nat) : (syndromeOf src off n).testBit j =
    (List.range n).foldl (fun p t => p ^^ (streamBit src (off + t) && (t + 1).testBit j)) false := by
  induction n with
  | zero => simp [syndromeOf]
  | succ n ih =>
    simp only [syndromeOf] at ih ⊢
    rw [List.range_succ, List.foldl_append, List.foldl_append]
    simp only [List.foldl_cons, List.foldl_nil]
    rw [← ih]
    split
    · rename_i h; simp [h, Nat.testBit_xor]
    · rename_i h; simp [h]

theorem syndromeOf_succ (src : List Byte) (off n : Nat) : syndromeOf src off (n + 1) =
    if streamBit src (off + n) then syndromeOf src off n ^^^ (n + 1) else syndromeOf src off n := by
  simp only [syndromeOf]
  rw [List.range_succ, List.foldl_append]
  simp

/-- R125: a syndrome of `n` positions below `2^r` is below `2^r`. -/
theorem syndromeOf_lt (src : List Byte) (off : Nat) {n r : Nat} (h : n < 2 ^ r) : syndromeOf src off n < 2 ^ r := by
  induction n with
  | zero => simp [syndromeOf]
  | succ n ih =>
    have hs := ih (by omega)
    rw [syndromeOf_succ]
    split
    · exact Nat.xor_lt_two_pow hs h
    · exact hs

/-! ## The injector -/

/-- The selected positions lie where they should and rise strictly. -/
theorem selectFrom_sorted (pick : Nat → Bool) (left t need : Nat) :
    (∀ q ∈ selectFrom pick left t need, t ≤ q ∧ q < t + left) ∧ (selectFrom pick left t need).Pairwise (· < ·) := by
  induction left generalizing t need with
  | zero => simp [selectFrom]
  | succ left ih =>
    simp only [selectFrom]
    split
    · simp
    · split
      · obtain ⟨h1, h2⟩ := ih (t + 1) (need - 1)
        refine ⟨?_, List.pairwise_cons.2 ⟨fun q hq => (h1 q hq).1, h2⟩⟩
        rintro q hq
        rcases List.mem_cons.1 hq with rfl | hq
        · omega
        · have := h1 q hq; omega
      · obtain ⟨h1, h2⟩ := ih (t + 1) need
        exact ⟨fun q hq => by have := h1 q hq; omega, h2⟩

/-- The number of selected positions is exact. -/
theorem selectFrom_length (pick : Nat → Bool) {left need : Nat} (t : Nat) (h : need ≤ left) :
    (selectFrom pick left t need).length = need := by
  induction left generalizing t need with
  | zero => simp [selectFrom]; omega
  | succ left ih =>
    simp only [selectFrom]
    split
    · simp_all
    · split
      · simp only [List.length_cons]
        rw [ih (t + 1) (need := need - 1) (by omega)]; omega
      · rename_i hn
        simp only [Bool.or_eq_true, decide_eq_true_eq, not_or] at hn
        exact ih (t + 1) (by omega)

/-- Every set of the right size arises: a `pick` that answers membership in it selects it. So the model leaves NoiseSelect as
free as R183 does. -/
theorem selectFrom_complete (S : List Nat) (hs : S.Pairwise (· < ·)) (left t : Nat) (hm : ∀ q ∈ S, t ≤ q ∧ q < t + left) :
    selectFrom (fun q => decide (q ∈ S)) left t S.length = S := by
  suffices H : ∀ (left t : Nat) (R : List Nat), R.Pairwise (· < ·) → (∀ q ∈ R, t ≤ q ∧ q < t + left) →
      ∀ pick : Nat → Bool, (∀ q, t ≤ q → pick q = decide (q ∈ R)) → selectFrom pick left t R.length = R by
    exact H left t S hs hm _ fun _ _ => rfl
  intro left
  induction left with
  | zero =>
    intro t R _ hm pick _
    cases R with
    | nil => rfl
    | cons q R => have := hm q (by simp); omega
  | succ left ih =>
    intro t R hs hm pick hp
    cases R with
    | nil => simp [selectFrom]
    | cons q R =>
      rw [List.pairwise_cons] at hs
      have hq := hm q (by simp)
      by_cases hqt : q = t
      · subst hqt
        have hpick : pick q = true := by rw [hp q (Nat.le_refl _)]; simp
        simp only [selectFrom, List.length_cons, Nat.add_one_sub_one, hpick, Bool.or_true, if_true]
        rw [if_neg (by omega), ih (q + 1) R hs.2 ?_ pick ?_]
        · intro p hpR
          have := hs.1 p hpR; have := hm p (by simp [hpR]); omega
        · intro p hpq
          rw [hp p (by omega)]
          have : p ≠ q := by omega
          simp [this]
      · have hpick : pick t = false := by
          rw [hp t (Nat.le_refl _)]
          simp only [decide_eq_false_iff_not, List.mem_cons, not_or]
          exact ⟨fun h => hqt h.symm, fun h => by have := hs.1 t h; omega⟩
        have hlen : (q :: R).length ≤ left := by
          have hnd : (q :: R).Nodup := (List.pairwise_cons.2 hs).imp (fun h => Nat.ne_of_lt h)
          have hsub : (q :: R) ⊆ (List.range' (t + 1) left) := by
            intro p hpm
            have := hm p hpm
            have : p ≠ t := by
              rintro rfl
              rcases List.mem_cons.1 hpm with h | h
              · exact hqt h.symm
              · have := hs.1 p h; omega
            rw [List.mem_range'_1]; omega
          simpa using (List.subperm_of_subset hnd hsub).length_le
        rw [selectFrom, if_neg (by simp), if_neg ?_]
        · apply ih (t + 1) (q :: R) (List.pairwise_cons.2 hs) ?_ pick fun p hpt => hp p (by omega)
          intro p hpm
          have := hm p hpm
          have : p ≠ t := by
            rintro rfl
            rcases List.mem_cons.1 hpm with h | h
            · exact hqt h.symm
            · have := hs.1 p h; omega
          omega
        · simp only [hpick, Bool.or_false, decide_eq_true_eq]; omega

/-- R183: the selection has no repeats, lies in [0, N), and has exactly `count` elements. -/
theorem noiseSelect_spec (seed : Word) {N count : Nat} (h : count ≤ N) :
    (noiseSelect seed N count).Pairwise (· < ·) ∧ (∀ q ∈ noiseSelect seed N count, q < N) ∧
      (noiseSelect seed N count).length = count := by
  obtain ⟨h1, h2⟩ := selectFrom_sorted (Config.noisePick seed N count) N 0 count
  exact ⟨h2, fun q hq => by have := h1 q hq; omega, selectFrom_length _ 0 h⟩

/-- R181, R182: at a legal level the count is at most the number of bits. -/
theorem noiseCount_le {len level : Nat} (h : level ≤ Config.levelMax) : noiseCount len level ≤ 8 * len := by
  simp only [noiseCount, Config.levelDivisor, Config.levelMax] at *
  rw [Nat.div_le_iff_le_mul_add_pred (by decide)]
  have : 8 * len * level ≤ 8 * len * 6553600 := Nat.mul_le_mul_left _ (by omega)
  omega

@[simp] theorem flipBytes_length (S : List Nat) (i : Nat) (bs : List Byte) : (flipBytes S i bs).length = bs.length := by
  induction bs generalizing i with
  | nil => rfl
  | cons b bs ih => simp [flipBytes, ih]

theorem getElem?_flipBytes (S : List Nat) (i : Nat) (bs : List Byte) (k : Nat) :
    (flipBytes S i bs)[k]? = (bs[k]?).map fun b => b ^^^ flipMask S (i + k) := by
  induction bs generalizing i k with
  | nil => simp [flipBytes]
  | cons b bs ih =>
    cases k with
    | zero => simp [flipBytes]
    | succ k => simp [flipBytes, ih, Nat.add_right_comm, Nat.add_assoc]

/-- R184: bit `7 - j` of the mask of byte `i` is 1 exactly when position `8 i + j` is selected. -/
theorem flipMask_getLsbD (S : List Nat) (i : Nat) {j : Nat} (h : j < 8) :
    (flipMask S i).getLsbD (7 - j) = decide (8 * i + j ∈ S) :=
  byteOfBits_getLsbD (fun j => decide (8 * i + j ∈ S)) h

end Sys2Proof.Machine
end

