-- ==== Sys2Proof/Tests/Slice0.lean ====
section
/-! SUPPORT. Tests against the vectors of 95_test_vectors.md and the encodings of 30_encoding.md, and a witness for the
hypotheses of every obligation that has some. -/
namespace Sys2Proof.Tests
open Sys2Proof Sys2Proof.Machine

/-! ## Well-formedness: an ill-formed command for each check -/

/-- R85: the assembler refuses HAM.CFG with k > 65535. -/
theorem test_wellFormed_refuses_wide_k : (Instr.hamCfg 65536).wellFormed = false := by decide
theorem test_wellFormed_takes_every_k_that_encodes :
    (Instr.hamCfg 0).wellFormed = true ∧ (Instr.hamCfg 65535).wellFormed = true := by decide
theorem test_assembler_refuses_wide_k :
    assembleWord ['H', 'A', 'M', '.', 'C', 'F', 'G'] [['6', '5', '5', '3', '6']] = none := by decide
/-- R85: `NOISE.INJ ent` is 0x0000_0105; a mnemonic is case-insensitive. -/
theorem test_assembler_ent :
    assembleWord ['n', 'o', 'i', 's', 'e', '.', 'I', 'N', 'J'] [['e', 'n', 't']] = some 0x00000105#32 := by decide

/-! ## Decoding: words written bit by bit, IMM16 FLAGS OP (R77, R81), and the host's own reading of them -/

theorem test_decode_nop : decodeTableWord 32 0b0000000000000000_00000000_00000000 = some .nop := by decide
theorem test_decode_hufDec : decodeTableWord 32 0b0000000000000000_00000000_00000001 = some .hufDec := by decide
theorem test_decode_rleDec : decodeTableWord 32 0b0000000000000000_00000000_00000010 = some .rleDec := by decide
/-- V-HC-2 and V-HC-8. -/
theorem test_decode_hamCfg : decodeTableWord 32 0b0000000000000100_00000000_00000011 = some (.hamCfg 4) ∧
    decodeTableWord 32 0b1111111111101111_00000000_00000011 = some (.hamCfg 65519) := by decide
theorem test_decode_hamSyn : decodeTableWord 32 0b0000000000000000_00000000_00000100 = some .hamSyn := by decide
theorem test_decode_noiseInj : decodeTableWord 32 0b0000000000000000_00000000_00000101 = some (.noiseInj false) ∧
    decodeTableWord 32 0b0000000000000000_00000001_00000101 = some (.noiseInj true) := by decide
/-- V-CMD-2 to V-CMD-6 and V-CMD-8: OP 0x06 and 0xFF, a reserved FLAGS bit, IMM16 where it is reserved. -/
theorem test_decode_reserved : ∀ w ∈ [0x6, 0xFF, 0x101, 0x10001, 0x205, 0x40103], decodeTableWord 32 w = none := by decide

/-! ## A small state: a command in progress over bytes at 0x10, with its destination at 0x400 -/

/-- The command word `w` in progress over the source bytes, with room for `cap` bytes. -/
def issuedWord (w : Word) (src : List Byte) (cap : Nat) : State :=
  { State.reset with
    regs := { Regs.reset with cmd := w, phase := .busy }
    latched := { Latched.reset with
      cmd := w, srcAddr := 0x10#32, srcLen := BitVec.ofNat 32 src.length, dstAddr := 0x400#32, dstCap := BitVec.ofNat 32 cap }
    mem := Memory.writeBytes [] 0x10 src
    guards := [⟨⟨0x10, src.length⟩, ⟨0x400, cap⟩⟩] }

/-- The command `i` in progress. -/
def issued (i : Instr) (src : List Byte) (cap : Nat) : State := issuedWord (encode i) src cap

/-- The state `s` with a Hamming geometry. -/
def configured (s : State) (k r : Nat) : State :=
  { s with regs := { s.regs with hamK := BitVec.ofNat 16 k, hamR := BitVec.ofNat 8 r, hamN := BitVec.ofNat 16 (k + r) } }

/-- The state `s` with other latched operands. -/
def latching (s : State) (f : Latched → Latched) : State := { s with latched := f s.latched }

/-- What a host sees of a register after a step. -/
def seen (o : Outcome) (reg : Reg) : Option Word :=
  match o with
  | .next t => some (t.regs.read reg)
  | .fault _ => none
  | .refused _ => none

/-- The first bytes at the destination after a step. -/
def dst (o : Outcome) (n : Nat) : Option (List Byte) :=
  match o with
  | .next t => some (t.mem.readBytes 0x400 n)
  | .fault _ => none
  | .refused _ => none

/-! ## Each instruction, on vectors of the spec -/

/-- V-CMD-1, and R110's example: from reset, the NOP leaves STATUS = 2 and CMD = 0. -/
theorem test_nop : seen (step (State.reset.withFetchWord 32 0)) .status = some 0x00000002#32 ∧
    seen (step (State.reset.withFetchWord 32 0)) .cmd = some 0#32 := by decide
/-- V-HD-1. -/
theorem test_hufDec : let o := step (issued .hufDec [0x82#8, 0x98#8, 0x4C#8, 0x44#8] 64)
    dst o 4 = some [0x61#8, 0x61#8, 0x62#8, 0x00#8] ∧ seen o .outLen = some 3#32 ∧ seen o .hufInfo = some 0x00030002#32 ∧
      seen o .status = some 0x00000002#32 := by decide
/-- V-HD-16. -/
theorem test_hufDec_partial_code : let o := step (issued .hufDec [0x81#8, 0x9E#8, 0x27#8, 0x93#8, 0xD2#8] 64)
    dst o 2 = some [0x78#8, 0x00#8] ∧ seen o .outLen = some 1#32 ∧ seen o .hufInfo = some 0x00050001#32 ∧
      seen o .status = some 0x00001404#32 := by decide
/-- V-RD-8. -/
theorem test_rleDec : let o := step (issued .rleDec [0x01#8, 0x10#8, 0x82#8, 0x20#8] 16)
    dst o 4 = some [0x10#8, 0x20#8, 0x20#8, 0x00#8] ∧ seen o .outLen = some 3#32 ∧ seen o .status = some 0x00000002#32 := by
  decide
/-- V-RD-15. -/
theorem test_rleDec_overflow : let o := step (issued .rleDec [0x83#8, 0x61#8, 0x83#8, 0x62#8] 5)
    dst o 6 = some [0x61#8, 0x61#8, 0x61#8, 0x62#8, 0x62#8, 0x00#8] ∧ seen o .outLen = some 5#32 ∧
      seen o .status = some 0x00000804#32 := by decide
/-- V-HC-7. -/
theorem test_hamCfg : let o := step (State.reset.withFetchWord 32 0x7FF10003)
    seen o .hamK = some 0x00007FF1#32 ∧ seen o .hamGeom = some 0x80010010#32 ∧ seen o .status = some 0x00000042#32 := by decide
/-- V-HC-9. -/
theorem test_hamCfg_bad : let o := step (State.reset.withFetchWord 32 0xFFF00003)
    seen o .hamK = some 0#32 ∧ seen o .hamGeom = some 0#32 ∧ seen o .status = some 0x00000604#32 := by decide
/-- V-HS-7. -/
theorem test_hamSyn :
    let o := step (latching (configured (issued .hamSyn [0x66#8, 0xDC#8] 0) 4 3) fun l => { l with hamBitoff := 7#32 })
    seen o .syndrome = some 5#32 ∧ seen o .status = some 0x00000052#32 := by decide
/-- V-HS-12: a syndrome above `n`. -/
theorem test_hamSyn_over : let o := step (configured (issued .hamSyn [0x50#8] 0) 2 3)
    seen o .syndrome = some 6#32 ∧ seen o .status = some 0x00000072#32 := by decide
/-- V-L1-2: level 100 percent, whatever NoiseSelect is. -/
theorem test_noiseInj :
    let o := step (latching (issued (.noiseInj false) [0x00#8, 0xFF#8, 0x5A#8] 3) fun l => { l with noiseLevel := 0x00640000#32 })
    dst o 4 = some [0xFF#8, 0x00#8, 0xA5#8, 0x00#8] ∧ seen o .flipCount = some 24#32 ∧ seen o .outLen = some 3#32 := by decide
/-- V-CMD-7: level 0 with ENT = 1 is a copy. -/
theorem test_noiseInj_ent : let o := step (issued (.noiseInj true) [0x12#8, 0x34#8] 2)
    dst o 3 = some [0x12#8, 0x34#8, 0x00#8] ∧ seen o .flipCount = some 0#32 ∧ seen o .status = some 0x00000002#32 := by decide
/-- V-CMD-2. -/
theorem test_illegal : seen (step (State.reset.withFetchWord 32 0x6)) .status = some 0x00000104#32 := by decide
/-- V-REG-6: ERR is cleared, ERRCODE kept. -/
theorem test_status_write :
    let s := { State.reset with regs := { Regs.reset with err := true, errcode := 0x02#8 } }
    seen (applyInput (.regWrite 0x008 4 0x00000004#32) s) .status = some 0x00000200#32 := by decide
/-- V-REG-2. -/
theorem test_irqEn_write : seen (applyInput (.regWrite 0x00C 4 0xFFFFFFFF#32) State.reset) .irqEn = some 0x00000003#32 := by decide
/-- V-REG-4. -/
theorem test_address_write : seen (applyInput (.regWrite 0x014 4 0x12345678#32)
    { State.reset with platform := ⟨16, 0, []⟩ }) .srcAddr = some 0x00005678#32 := by decide

/-! ## Witnesses: concrete states and operands that meet the hypotheses of an obligation together -/

theorem fits_of {p : Platform} {w : AddrRange} (h1 : w.len ≤ Config.lenMax) (h2 : w.base + w.len ≤ 2 ^ p.aw)
    (h3 : p.refused = []) : p.Fits w := ⟨h1, h2, fun _ _ => by simp [Platform.admits, h3]⟩

theorem apart_of {r q : AddrRange} (h : r.meets q = false) : r.Apart q :=
  fun a ha => by simp [(AddrRange.meets_iff r q).2 ⟨a, ha⟩] at h

theorem not_apart_of {r q : AddrRange} (h : r.meets q = true) : ∃ a, r.contains a = true ∧ q.contains a = true :=
  (AddrRange.meets_iff r q).1 h

/-- The start checks on the windows pass in the states of these tests. -/
theorem windows_of {s : State} (h1 : s.latched.src.len ≤ Config.lenMax) (h2 : s.latched.src.base + s.latched.src.len ≤ 2 ^ s.platform.aw)
    (h3 : s.latched.dst.len ≤ Config.lenMax) (h4 : s.latched.dst.base + s.latched.dst.len ≤ 2 ^ s.platform.aw)
    (h5 : s.latched.src.meets s.latched.dst = false) (h6 : s.platform.refused = []) :
    s.SrcFits ∧ s.DstFits ∧ s.latched.src.Apart s.latched.dst :=
  ⟨fits_of h1 h2 h6, fits_of h3 h4 h6, apart_of h5⟩

theorem witness_DecodeOfEncode : (Instr.hamCfg 0).wellFormed = true ∧ (Instr.hamCfg 65535).wellFormed = true ∧
    (Instr.noiseInj true).wellFormed = true := by decide

theorem witness_EncodeOfDecode : decode 0x00040003#32 = .ok (.hamCfg 4) ∧ decode 0xFFFF0003#32 = .ok (.hamCfg 65535) ∧
    decode 0x00000105#32 = .ok (.noiseInj true) := ⟨rfl, rfl, rfl⟩

/-- A row and a word it matches. -/
theorem witness_IllegalWordsAreTheReservedOnes : ∃ r ∈ opcodeTable, 0xFFFF0003#32 &&& r.mask = r.value := by decide

theorem witness_AssemblerEncodesHamCfg : numeral ['6', '5', '5', '3', '5'] = some 65535 ∧
    numeral ['0', 'x', '1', '0', '0', '0', '0'] = some 65536 := by decide

theorem witness_StepRunsTheLatchedCommand :
    (let s := issued .hufDec [0x80#8] 4;
      s.regs.phase = .busy ∧ decode s.latched.cmd = .ok .hufDec ∧ s.inputs = []) ∧
    (let s := { issued .hufDec [0x80#8] 4 with inputs := [.engine, .sampleIrq] };
      s.regs.phase = .busy ∧ decode s.latched.cmd = .ok .hufDec ∧ s.inputs = .engine :: [.sampleIrq]) ∧
    (0xFFFF0003 < 2 ^ 32 ∧ decode (BitVec.ofNat 32 0xFFFF0003) = .ok (.hamCfg 65535)) :=
  ⟨⟨rfl, rfl, rfl⟩, ⟨rfl, rfl, rfl⟩, by decide, rfl⟩

theorem witness_CmdWriteIsAcceptedWhenIdle :
    State.reset.resetAsserted = false ∧ State.reset.regs.phase = .idle := by decide

theorem witness_CmdWriteIsDroppedWhenBusy :
    (issued .nop [] 0).resetAsserted = false ∧ (issued .nop [] 0).regs.phase = .busy := by decide

theorem witness_EveryCommandCompletes : (issued .hamSyn [] 0).regs.done = false ∧ (issued .hamSyn [] 0).regs.err = false := by
  decide

theorem witness_BusyBlockBecomesIdle : (issued .rleDec [] 0).regs.phase = .busy := rfl

/-! ### FirstFailedCheckDecides, one witness for each clause -/

theorem witness_FirstFailedCheckDecides_illegal :
    let s := issuedWord 0x00000006#32 [] 0
    s.regs.phase = .busy ∧ ∀ r ∈ opcodeTable, s.latched.cmd &&& r.mask ≠ r.value := by decide

theorem witness_FirstFailedCheckDecides_param :
    ParamFails (.hamCfg 0) (issued (.hamCfg 0) [] 0) 0x06#8 ∧ ParamFails (.hamCfg 65520) (issued (.hamCfg 65520) [] 0) 0x06#8 ∧
      ParamFails .hamSyn (issued .hamSyn [] 0) 0x07#8 ∧
      ParamFails (.noiseInj true)
        (latching (issued (.noiseInj true) [] 0) fun l => { l with noiseLevel := 0x00640001#32 }) 0x06#8 :=
  ⟨⟨.inl rfl, rfl⟩, ⟨.inr (by decide), rfl⟩, ⟨rfl, rfl⟩, ⟨by decide, rfl⟩⟩

/-- V-CMD-12, and a source one byte longer than LEN_MAX (V-CMD-10). -/
theorem witness_FirstFailedCheckDecides_range :
    let s := latching (issued .hufDec [] 4) fun l => { l with srcAddr := 0xFFFFFFFE#32, srcLen := 3#32 }
    let q := latching (issued .hufDec [] 4) fun l => { l with srcLen := 0x10000000#32 };
    (decode s.latched.cmd = .ok .hufDec ∧ (∀ c, ¬ ParamFails .hufDec s c) ∧ RangeFails .hufDec s) ∧
      (∀ c, ¬ ParamFails .hufDec q c) ∧ RangeFails .hufDec q :=
  ⟨⟨rfl, fun _ h => h, _, .head _, .inr (by decide)⟩, fun _ h => h, _, .head _, .inl (by decide)⟩

theorem no_range_of {i : Instr} {s : State}
    (h : ∀ w ∈ usedWindows i s.latched, w.len ≤ 0x0FFFFFFF ∧ w.base + w.len ≤ 2 ^ s.platform.aw) : ¬ RangeFails i s := by
  rintro ⟨w, hw, hc⟩
  have := h w hw
  omega

theorem no_admit_of {i : Instr} {s : State} (h : s.platform.refused = []) : ¬ AdmitFails i s := by
  rintro ⟨w, -, a, -, ha⟩
  simp [Platform.admits, h] at ha

/-- V-CMD-17. -/
theorem witness_FirstFailedCheckDecides_overlap :
    let s := latching (issued (.noiseInj false) [1#8, 2#8, 3#8] 3) fun l => { l with dstAddr := 0x11#32 };
    (∀ c, ¬ ParamFails (.noiseInj false) s c) ∧ ¬ RangeFails (.noiseInj false) s ∧ OverlapFails (.noiseInj false) s :=
  ⟨fun _ h => absurd h.1 (by decide), no_range_of (by decide), not_apart_of (by decide), by decide⟩

/-- V-CMD-20. -/
theorem witness_FirstFailedCheckDecides_admit :
    let s := { issued .rleDec [] 16 with platform := ⟨32, 0, [⟨0x405, 1⟩]⟩ };
    (∀ c, ¬ ParamFails .rleDec s c) ∧ ¬ RangeFails .rleDec s ∧ ¬ OverlapFails .rleDec s ∧ AdmitFails .rleDec s := by
  refine ⟨fun _ h => h, no_range_of (by decide), ?_, ⟨0x400, 16⟩, by decide, 0x405, by decide, by decide⟩
  rintro ⟨a, ha⟩
  exact apart_of (r := ⟨0x10, 0⟩) (q := ⟨0x400, 16⟩) (by decide) a ha

/-- V-CMD-21 and V-CMD-18. -/
theorem witness_FirstFailedCheckDecides_length :
    (let s := configured (issued .hamSyn [] 0) 4 3;
      (∀ c, ¬ ParamFails .hamSyn s c) ∧ ¬ RangeFails .hamSyn s ∧ ¬ OverlapFails .hamSyn s ∧ ¬ AdmitFails .hamSyn s ∧
        LengthFails .hamSyn s 0x02#8) ∧
    (let s := latching (issued (.noiseInj false) [1#8, 2#8, 3#8] 2) fun l => { l with dstAddr := 0x10#32 };
      (∀ c, ¬ ParamFails (.noiseInj false) s c) ∧ ¬ RangeFails (.noiseInj false) s ∧ ¬ OverlapFails (.noiseInj false) s ∧
        ¬ AdmitFails (.noiseInj false) s ∧ LengthFails (.noiseInj false) s 0x08#8) :=
  ⟨⟨fun _ h => absurd h.1 (by decide), no_range_of (by decide), fun h => h, no_admit_of rfl, by decide, rfl⟩,
    ⟨fun _ h => absurd h.1 (by decide), no_range_of (by decide), fun h => absurd rfl h.2, no_admit_of rfl, by decide, rfl⟩⟩

/-! ### The Hamming unit -/

theorem witness_HamCfgSetsTheGeometry : (1 ≤ 1 ∧ 1 ≤ 65519) ∧ (1 ≤ 65519 ∧ 65519 ≤ 65519) := by decide

/-- The block ends at the window's last bit (R123): V-HS-8. -/
theorem witness_HamSynMultipliesByTheMatrix :
    let s := latching (configured (issued .hamSyn [0x66#8, 0xDC#8] 0) 4 3) fun l => { l with hamBitoff := 9#32 }
    s.regs.hamK ≠ 0#16 ∧ s.SrcFits ∧ s.latched.hamBitoff.toNat + s.regs.hamN.toNat ≤ 8 * s.latched.srcLen.toNat :=
  ⟨by decide, fits_of (by decide) (by decide) rfl, by decide⟩

/-- V-HS-1, with `p` at both ends. -/
theorem witness_SingleBitErrorNamesItsPosition :
    let s := configured (issued .hamSyn [0x66#8] 0) 4 3
    s.mem.wf ∧ s.regs.hamK ≠ 0#16 ∧ s.SrcFits ∧ s.latched.hamBitoff.toNat + s.regs.hamN.toNat ≤ 8 * s.latched.srcLen.toNat ∧
      (∃ t, exec .hamSyn s = .next t ∧ t.regs.syndrome = 0#16) ∧ 1 ≤ 1 ∧ 7 ≤ s.regs.hamN.toNat :=
  ⟨by decide, by decide, fits_of (by decide) (by decide) rfl, by decide, ⟨_, rfl, by decide⟩, by decide, by decide⟩

/-- V-HS-4: the placeholder word 0x26 of data 1011, and the block 0x66 its syndrome gives. -/
theorem witness_SyndromeBitsAreTheParityBits :
    let s := configured (issued .hamSyn [0x26#8] 0) 4 3
    let m := Memory.writeBytes [] 0x10 [0x66#8]
    s.regs.HammingOk ∧ s.regs.hamK ≠ 0#16 ∧ s.SrcFits ∧
      s.latched.hamBitoff.toNat + s.regs.hamN.toNat ≤ 8 * s.latched.srcLen.toNat ∧
      (∃ t, exec .hamSyn s = .next t ∧ ∀ j, j < s.regs.hamR.toNat →
        s.mem.bit s.latched.srcAddr.toNat (s.latched.hamBitoff.toNat + (2 ^ j - 1)) = false ∧
        m.bit s.latched.srcAddr.toNat (s.latched.hamBitoff.toNat + (2 ^ j - 1)) = t.regs.syndrome.getLsbD j) ∧
      (∀ i, 1 ≤ i → i ≤ s.regs.hamN.toNat → (∀ j, i ≠ 2 ^ j) →
        m.bit s.latched.srcAddr.toNat (s.latched.hamBitoff.toNat + (i - 1)) =
          s.mem.bit s.latched.srcAddr.toNat (s.latched.hamBitoff.toNat + (i - 1))) := by
  intro s m
  refine ⟨.inr (by decide), by decide, fits_of (by decide) (by decide) rfl, by decide, ⟨_, rfl, by decide⟩, ?_⟩
  intro i h1 h2 h3
  have h2 : i ≤ 7 := h2
  have h1' := h3 0
  have h2' := h3 1
  have h4' := h3 2
  have : i = 3 ∨ i = 5 ∨ i = 6 ∨ i = 7 := by omega
  rcases this with rfl | rfl | rfl | rfl <;> decide

/-! ### The run-length decoder -/

/-- V-RD-14: the destination is exactly full. -/
theorem witness_RleDecExpandsRecords :
    let s := issued .rleDec [0x83#8, 0x61#8, 0x83#8, 0x62#8] 6
    let items := [RleItem.copies 3 0x61#8, RleItem.copies 3 0x62#8]
    s.mem.wf ∧ (s.SrcFits ∧ s.DstFits ∧ s.latched.src.Apart s.latched.dst) ∧ (∀ it ∈ items, it.legal = true) ∧
      s.srcBytes = items.flatMap RleItem.stream ∧ (items.flatMap RleItem.expansion).length ≤ s.latched.dstCap.toNat :=
  ⟨by decide, windows_of (by decide) (by decide) (by decide) (by decide) (by decide) rfl, by decide, by decide, by decide⟩

/-- The records at the ends of their ranges are legal: 1 and 127 literal bytes, 0 and 128 copies. -/
theorem witness_RleDecExpandsRecords_legal :
    (RleItem.literal [0x41#8]).legal = true ∧ (RleItem.literal (List.replicate 127 0x41#8)).legal = true ∧
      (RleItem.copies 0 0x41#8).legal = true ∧ (RleItem.copies 128 0x41#8).legal = true := by simp [RleItem.legal]

/-- V-RD-12 and V-RD-11: a literal record and a repeat record, each cut off by one byte. -/
theorem witness_RleDecStopsAtTruncatedRecord :
    (let s := issued .rleDec [0x83#8, 0x61#8, 0x02#8, 0x62#8] 16;
      let items := [RleItem.copies 3 0x61#8]
      s.mem.wf ∧ (s.SrcFits ∧ s.DstFits ∧ s.latched.src.Apart s.latched.dst) ∧ (∀ it ∈ items, it.legal = true) ∧
        s.srcBytes = items.flatMap RleItem.stream ++ 0x02#8 :: [0x62#8] ∧
        (0 < (0x02#8).toInt ∧ (([0x62#8] : List Byte).length : Int) < (0x02#8).toInt) ∧
        (items.flatMap RleItem.expansion).length ≤ s.latched.dstCap.toNat) ∧
    (let s := issued .rleDec [0x83#8] 16;
      s.mem.wf ∧ (s.SrcFits ∧ s.DstFits ∧ s.latched.src.Apart s.latched.dst) ∧ s.srcBytes = [] ++ 0x83#8 :: [] ∧
        (0x83#8).toInt ≤ 0) :=
  ⟨⟨by decide, windows_of (by decide) (by decide) (by decide) (by decide) (by decide) rfl, by decide, by decide, by decide,
      by decide⟩,
    ⟨by decide, windows_of (by decide) (by decide) (by decide) (by decide) (by decide) rfl, by decide, by decide⟩⟩

/-- V-RD-13. -/
theorem witness_RleDecStopsAtFullDestination :
    let s := issued .rleDec [0x85#8, 0x41#8] 3
    let items := [RleItem.copies 5 0x41#8]
    s.mem.wf ∧ (s.SrcFits ∧ s.DstFits ∧ s.latched.src.Apart s.latched.dst) ∧ (∀ it ∈ items, it.legal = true) ∧
      s.srcBytes = items.flatMap RleItem.stream ++ [] ∧ s.latched.dstCap.toNat < (items.flatMap RleItem.expansion).length :=
  ⟨by decide, windows_of (by decide) (by decide) (by decide) (by decide) (by decide) rfl, by decide, by decide, by decide⟩

set_option maxRecDepth 8000 in
/-- V-RD-6: 128 bytes from 2, the bound itself. -/
theorem witness_RleDecOutputBound :
    let s := issued .rleDec [0x00#8, 0x41#8] 200
    s.regs.done = false ∧ ∃ t, exec .rleDec s = .next t ∧ t.regs.done = true ∧ t.regs.outLen = 128#32 :=
  ⟨rfl, _, rfl, by decide, by decide⟩

/-! ### The Huffman decoder -/

/-- The tree of V-HD-1: 'a' and 'b'. -/
def treeAB : HufTree := .node (.leaf 0x61#8) (.leaf 0x62#8)

/-- V-HD-21: the destination is exactly full. -/
theorem witness_HufDecDecodesTreeAndCodes :
    let s := issued .hufDec [0x82#8, 0x98#8, 0x4C#8, 0x44#8] 3
    let codes := [[false], [false], [true]]
    let ds := [0x61#8, 0x61#8, 0x62#8]
    s.mem.wf ∧ (s.SrcFits ∧ s.DstFits ∧ s.latched.src.Apart s.latched.dst) ∧ treeAB.nodes ≤ 511 ∧
      codes.map treeAB.codeOf = ds.map some ∧ s.srcBytes = hufHeader 2 :: [0x98#8, 0x4C#8, 0x44#8] ∧
      streamBits [0x98#8, 0x4C#8, 0x44#8] = treeAB.bits ++ codes.flatten ++ [false, false] ∧
      ds.length ≤ s.latched.dstCap.toNat :=
  ⟨by decide, windows_of (by decide) (by decide) (by decide) (by decide) (by decide) rfl, by decide, by decide, by decide,
    by decide, by decide⟩

/-- V-HD-5, V-HD-8 and V-HD-9: no source byte; a padding count of exactly the stream bits; one more than them. -/
theorem witness_HufDecHeaderCases :
    (let s := issued .hufDec [] 64;
      (s.SrcFits ∧ s.DstFits ∧ s.latched.src.Apart s.latched.dst) ∧ s.latched.srcLen.toNat = 0) ∧
    (let s := issued .hufDec [0x98#8, 0x98#8, 0x4C#8, 0x44#8] 64;
      (s.SrcFits ∧ s.DstFits ∧ s.latched.src.Apart s.latched.dst) ∧ s.latched.srcLen.toNat ≠ 0 ∧
        ((s.mem.read s.latched.srcAddr.toNat).toNat + 128) % 256 = 8 * (s.latched.srcLen.toNat - 1)) ∧
    (let s := issued .hufDec [0x81#8] 64;
      (s.SrcFits ∧ s.DstFits ∧ s.latched.src.Apart s.latched.dst) ∧ s.latched.srcLen.toNat ≠ 0 ∧
        8 * (s.latched.srcLen.toNat - 1) < ((s.mem.read s.latched.srcAddr.toNat).toNat + 128) % 256) :=
  ⟨⟨windows_of (by decide) (by decide) (by decide) (by decide) (by decide) rfl, by decide⟩,
    ⟨windows_of (by decide) (by decide) (by decide) (by decide) (by decide) rfl, by decide, by decide⟩,
    ⟨windows_of (by decide) (by decide) (by decide) (by decide) (by decide) rfl, by decide, by decide⟩⟩

/-- V-HD-17. -/
theorem witness_HufDecRefusesLeafRoot :
    let s := issued .hufDec [0x80#8, 0x30#8, 0x80#8] 64;
    (s.SrcFits ∧ s.DstFits ∧ s.latched.src.Apart s.latched.dst) ∧ s.srcBytes = hufHeader 0 :: [0x30#8, 0x80#8] ∧
      streamBits [0x30#8, 0x80#8] = (HufTree.leaf 0x61#8).bits ++ List.replicate 7 false ++ [] :=
  ⟨windows_of (by decide) (by decide) (by decide) (by decide) (by decide) rfl, by decide, by decide⟩

/-- V-HD-14: 17 of the 19 bits of a tree. -/
theorem witness_HufDecTreeErrors_truncated :
    let s := issued .hufDec [0x87#8, 0x98#8, 0x4C#8, 0x44#8] 64
    let bits := (streamBits [0x98#8, 0x4C#8, 0x44#8]).take 17;
    (s.SrcFits ∧ s.DstFits ∧ s.latched.src.Apart s.latched.dst) ∧ s.srcBytes = hufHeader 7 :: [0x98#8, 0x4C#8, 0x44#8] ∧
      streamBits [0x98#8, 0x4C#8, 0x44#8] = bits ++ [true, false, false, false, true, false, false] ∧ bits ≠ [] ∧
      bits ++ [true, false] = treeAB.bits ∧ treeAB.internalBits bits.length ≤ 255 :=
  ⟨windows_of (by decide) (by decide) (by decide) (by decide) (by decide) rfl, by decide, by decide, by decide, by decide,
    by decide⟩

/-- `n` internal nodes down the left side, with leaves 0x00: one node more than the arena holds takes `n = 256`. -/
def leftChain : Nat → HufTree
  | 0 => .leaf 0x00#8
  | n + 1 => .node (leftChain n) (.leaf 0x00#8)

theorem leftChain_internalBits (n m : Nat) : (leftChain n).internalBits m = min n m := by
  induction n generalizing m with
  | zero => cases m <;> simp [leftChain, HufTree.internalBits]
  | succ n ih =>
    cases m with
    | zero => simp
    | succ m => simp only [leftChain, HufTree.internalBits, ih]; omega

/-- The stream of `leftChain 256` and seven bits more. -/
def leftChainBody : List Byte := List.replicate 32 0xFF#8 ++ List.replicate 290 0x00#8

theorem leftChain_nodes (n : Nat) : (leftChain n).nodes = 2 * n + 1 := by
  induction n with
  | zero => rfl
  | succ n ih => simp [leftChain, HufTree.nodes, ih]; omega

theorem leftChain_bits (n : Nat) : (leftChain n).bits = List.replicate n true ++ List.replicate (9 * (n + 1)) false := by
  induction n with
  | zero => rfl
  | succ n ih =>
    have h0 : (HufTree.leaf 0x00#8).bits = List.replicate 9 false := rfl
    rw [leftChain, HufTree.bits, ih, h0, List.append_assoc, ← List.replicate_add]
    rfl

theorem streamBits_replicate {b : Byte} {v : Bool} (n : Nat) (hb : bitsOfByte b = List.replicate 8 v) :
    streamBits (List.replicate n b) = List.replicate (8 * n) v := by
  induction n with
  | zero => rfl
  | succ n ih => rw [List.replicate_succ, streamBits_cons, ih, hb, ← List.replicate_add]; congr 1; omega

theorem leftChainBody_bits : streamBits leftChainBody = List.replicate 256 true ++ List.replicate 2320 false := by
  rw [leftChainBody, streamBits_append, streamBits_replicate (v := true) _ (by decide),
    streamBits_replicate (v := false) _ (by decide)]

theorem replicate_succ_last (n : Nat) : List.replicate (n + 1) true = List.replicate n true ++ [true] :=
  List.replicate_succ'

/-- 255 bits of internal nodes and nothing after them: the most that is truncated and does not overflow. -/
theorem witness_HufDecTreeErrors_truncated_last :
    let s := issued .hufDec (0x81#8 :: List.replicate 32 0xFF#8) 64
    let bits := List.replicate 255 true
    (s.SrcFits ∧ s.DstFits ∧ s.latched.src.Apart s.latched.dst) ∧ s.srcBytes = hufHeader 1 :: List.replicate 32 0xFF#8 ∧
      streamBits (List.replicate 32 0xFF#8) = bits ++ [true] ∧ bits ≠ [] ∧
      (∃ more, more ≠ [] ∧ bits ++ more = (leftChain 255).bits) ∧ (leftChain 255).internalBits bits.length ≤ 255 := by
  intro s bits
  refine ⟨windows_of (by decide) (by decide) (by decide) (by decide) (by decide) rfl, by decide, ?_, List.cons_ne_nil _ _,
    ⟨List.replicate 2304 false, List.cons_ne_nil _ _, (leftChain_bits 255).symm⟩, ?_⟩
  · rw [streamBits_replicate (v := true) _ (by decide)]
    exact replicate_succ_last 255
  · rw [leftChain_internalBits]
    exact Nat.min_le_left _ _

/-- V-HD-18, R145's example: 256 ones, of a tree that is not complete. -/
theorem witness_HufDecTreeErrors_overflow :
    let s := issued .hufDec (0x80#8 :: List.replicate 32 0xFF#8) 64
    let bits := List.replicate 256 true
    (s.SrcFits ∧ s.DstFits ∧ s.latched.src.Apart s.latched.dst) ∧ s.srcBytes = hufHeader 0 :: List.replicate 32 0xFF#8 ∧
      streamBits (List.replicate 32 0xFF#8) = bits ++ [] ∧ bits = bits ++ [] ∧ (∃ more, bits ++ more = (leftChain 256).bits) ∧
      256 ≤ (leftChain 256).internalBits bits.length := by
  intro s bits
  refine ⟨windows_of (by decide) (by decide) (by decide) (by decide) (by decide) rfl, by decide, ?_,
    (List.append_nil _).symm, ⟨_, (leftChain_bits 256).symm⟩, ?_⟩
  · rw [streamBits_replicate (v := true) _ (by decide), List.append_nil]
  · rw [leftChain_internalBits, List.length_replicate]
    decide

set_option maxRecDepth 20000 in
/-- A tree of 513 nodes, whole, with seven bits after it. -/
theorem witness_HufDecTreeErrors_overflow_whole :
    let s := issued .hufDec (0x80#8 :: leftChainBody) 64
    let bits := streamBits leftChainBody
    (s.SrcFits ∧ s.DstFits ∧ s.latched.src.Apart s.latched.dst) ∧ s.srcBytes = hufHeader 0 :: leftChainBody ∧
      streamBits leftChainBody = bits ++ [] ∧ bits = (leftChain 256).bits ++ List.replicate 7 false ∧
      (leftChain 256).bits ++ [] = (leftChain 256).bits ∧ 256 ≤ (leftChain 256).internalBits (leftChain 256).bits.length := by
  intro s bits
  refine ⟨windows_of (by decide) (by decide) (by decide) (by decide) (by decide) rfl, by decide, (List.append_nil _).symm, ?_,
    List.append_nil _, ?_⟩
  · show streamBits leftChainBody = _
    rw [leftChainBody_bits, leftChain_bits, List.append_assoc, ← List.replicate_add]
  · have := (leftChain 256).internalBits_whole (Nat.le_refl _)
    rw [leftChain_nodes] at this
    omega

/-- V-HD-16: the code of 'x', then the first bit of the code of 'y' or 'z'. -/
theorem witness_HufDecWalkErrors_partial :
    let s := issued .hufDec [0x81#8, 0x9E#8, 0x27#8, 0x93#8, 0xD2#8] 64
    let r := HufTree.node (.leaf 0x79#8) (.leaf 0x7A#8)
    let tree := HufTree.node (.leaf 0x78#8) r
    s.mem.wf ∧ (s.SrcFits ∧ s.DstFits ∧ s.latched.src.Apart s.latched.dst) ∧ tree.nodes ≤ 511 ∧
      [[false]].map tree.codeOf = [0x78#8].map some ∧ s.srcBytes = hufHeader 1 :: [0x9E#8, 0x27#8, 0x93#8, 0xD2#8] ∧
      streamBits [0x9E#8, 0x27#8, 0x93#8, 0xD2#8] = tree.bits ++ [[false]].flatten ++ [true] ++ [false] ∧
      1 ≤ s.latched.dstCap.toNat ∧ tree.codeOf ([true] ++ [false]) = some 0x79#8 :=
  ⟨by decide, windows_of (by decide) (by decide) (by decide) (by decide) (by decide) rfl, by decide, by decide, by decide,
    by decide, by decide, by decide⟩

/-- V-HD-19: room for two of three bytes. -/
theorem witness_HufDecWalkErrors_overflow :
    let s := issued .hufDec [0x82#8, 0x98#8, 0x4C#8, 0x44#8] 2
    let codes := [[false], [false], [true]]
    s.mem.wf ∧ (s.SrcFits ∧ s.DstFits ∧ s.latched.src.Apart s.latched.dst) ∧ treeAB.nodes ≤ 511 ∧
      codes.map treeAB.codeOf = [0x61#8, 0x61#8, 0x62#8].map some ∧ s.srcBytes = hufHeader 2 :: [0x98#8, 0x4C#8, 0x44#8] ∧
      streamBits [0x98#8, 0x4C#8, 0x44#8] = treeAB.bits ++ codes.flatten ++ [] ++ [false, false] ∧
      s.latched.dstCap.toNat < 3 :=
  ⟨by decide, windows_of (by decide) (by decide) (by decide) (by decide) (by decide) rfl, by decide, by decide, by decide,
    by decide, by decide⟩

/-! ### The injector -/

/-- NOISE.INJ over the bytes of V-L1-2, at a level. -/
def noisy (level : Word) (cap : Nat) : State :=
  latching (issued (.noiseInj false) [0x00#8, 0xFF#8, 0x5A#8] cap) fun l => { l with noiseLevel := level }

/-- Windows apart with room for exactly the source, and in place. -/
theorem witness_NoiseInjFlipsTheSelection :
    (let s := noisy 0x00640000#32 3;
      s.mem.wf ∧ s.latched.noiseLevel.toNat ≤ 0x00640000 ∧ (s.SrcFits ∧ s.DstFits ∧ s.latched.src.Apart s.latched.dst) ∧
        s.latched.srcLen.toNat ≤ s.latched.dstCap.toNat) ∧
    (let s := latching (noisy 0x00320000#32 3) fun l => { l with dstAddr := l.srcAddr };
      s.mem.wf ∧ s.latched.noiseLevel.toNat ≤ 0x00640000 ∧ s.SrcFits ∧ s.DstFits ∧ s.latched.dstAddr = s.latched.srcAddr ∧
        s.latched.srcLen.toNat ≤ s.latched.dstCap.toNat) :=
  ⟨⟨by decide, by decide, windows_of (by decide) (by decide) (by decide) (by decide) (by decide) rfl, by decide⟩,
    ⟨by decide, by decide, fits_of (by decide) (by decide) rfl, fits_of (by decide) (by decide) rfl, rfl, by decide⟩⟩

theorem witness_NoiseInjAtTheExtremeLevels :
    (let s := noisy 0#32 3;
      s.mem.wf ∧ s.regs.done = false ∧ (∃ t, exec (.noiseInj true) s = .next t ∧ t.regs.done = true) ∧
        s.latched.noiseLevel = 0#32) ∧
    (let s := noisy 0x00640000#32 3;
      s.mem.wf ∧ s.regs.done = false ∧ (∃ t, exec (.noiseInj true) s = .next t ∧ t.regs.done = true) ∧
        s.latched.noiseLevel = 0x00640000#32) :=
  ⟨⟨by decide, rfl, ⟨_, rfl, rfl⟩, rfl⟩, ⟨by decide, rfl, ⟨_, rfl, rfl⟩, rfl⟩⟩

/-- Two sources, one seed and level, over other bytes. -/
theorem witness_NoiseInjIsReproducible :
    let s1 := noisy 0x00320000#32 3
    let s2 := { s1 with mem := Memory.writeBytes [] 0x10 [0x01#8, 0x02#8, 0x03#8] }
    s1.mem.wf ∧ s2.mem.wf ∧ s1.regs.done = false ∧ s2.regs.done = false ∧
      (∃ t, exec (.noiseInj false) s1 = .next t ∧ t.regs.done = true) ∧
      (∃ t, exec (.noiseInj false) s2 = .next t ∧ t.regs.done = true) ∧ s1.latched.noiseSeed = s2.latched.noiseSeed ∧
      s1.latched.noiseLevel = s2.latched.noiseLevel ∧ s1.latched.srcLen = s2.latched.srcLen :=
  ⟨by decide, by decide, rfl, rfl, ⟨_, rfl, rfl⟩, ⟨_, rfl, rfl⟩, rfl, rfl, rfl⟩

/-- The second source holds the first one's output: at level 100 percent, the inverse. -/
theorem witness_NoiseInjTwiceRestores :
    let s1 := noisy 0x00640000#32 3
    let s2 := { s1 with mem := Memory.writeBytes [] 0x10 [0xFF#8, 0x00#8, 0xA5#8] }
    s1.mem.wf ∧ s2.mem.wf ∧ s1.regs.done = false ∧ s2.regs.done = false ∧
      (∃ t1, exec (.noiseInj false) s1 = .next t1 ∧ t1.regs.done = true ∧ ∀ i, i < s1.latched.srcLen.toNat →
        s2.mem.read (s2.latched.srcAddr.toNat + i) = t1.mem.read (s1.latched.dstAddr.toNat + i)) ∧
      (∃ t2, exec (.noiseInj false) s2 = .next t2 ∧ t2.regs.done = true) ∧ s1.latched.noiseSeed = s2.latched.noiseSeed ∧
      s1.latched.noiseLevel = s2.latched.noiseLevel ∧ s1.latched.srcLen = s2.latched.srcLen :=
  ⟨by decide, by decide, rfl, rfl, ⟨_, rfl, rfl, by decide⟩, ⟨_, rfl, rfl⟩, rfl, rfl, rfl⟩

/-! ### Register accesses -/

/-- The first and the last register, and the first and the last reserved offset. -/
theorem witness_RegisterReadsHaveNoSideEffect : State.reset.resetAsserted = false ∧
    ∀ o ∈ [0x000, 0x008, 0x00C, 0x044, 0x048, 0xFFC], o < 0x1000 ∧ o % 4 = 0 := by decide

theorem witness_StatusWriteClearsWrittenBits : State.reset.resetAsserted = false := rfl

/-- AW at both ends of its range. -/
theorem witness_RegisterWritesStore : State.reset.resetAsserted = false ∧ State.reset.platform.Legal ∧
    { State.reset with platform := ⟨8, 0, []⟩ }.platform.Legal :=
  ⟨rfl, ⟨by decide, by decide⟩, ⟨by decide, by decide⟩⟩

theorem witness_ReadOnlyRegistersIgnoreWrites : State.reset.resetAsserted = false ∧
    (0x044 < 0x1000 ∧ 0x044 % 4 = 0 ∧ 0x044 ∈ [0x000, 0x024, 0x028, 0x02C, 0x034, 0x040, 0x044]) ∧
    (0xFFC < 0x1000 ∧ 0xFFC % 4 = 0 ∧ 0x048 ≤ 0xFFC) ∧ (0xFFFFFFFE#32).getLsbD 0 = false := by decide

theorem witness_OtherRegisterAccessesAreRefused :
    { State.reset with resetAsserted := true }.resetAsserted = true ∧
    (State.reset.resetAsserted = false ∧ (0x008 < 0x1000 ∧ 2 ≠ 4) ∧ (0x00A < 0x1000 ∧ 0x00A % 4 ≠ 0)) := by decide

theorem witness_IrqFollowsStatusAndEnables : (issued .nop [] 0).resetAsserted = false := rfl

theorem witness_OperandWritesDoNotReachTheCommand :
    let s := issued .rleDec [0x81#8, 0x41#8] 4
    s.resetAsserted = false ∧ s.regs.phase = .busy ∧
      (∃ a, applyInput (.regWrite (s.platform.regBase + 0x018) 4 9#32) s = .next a) ∧ ∃ b, applyInput .engine s = .next b :=
  ⟨rfl, rfl, ⟨_, rfl⟩, ⟨_, rfl⟩⟩

theorem witness_BothOrdersOfCompletionAndWrite :
    let s := issued .hufDec [0x81#8] 4
    s.resetAsserted = false ∧ s.regs.phase = .busy ∧ s.regs.done = false ∧ s.regs.err = false ∧
      ∃ b, applyInput .engine s = .next b :=
  ⟨rfl, rfl, rfl, rfl, ⟨_, rfl⟩⟩

/-! ### Reset -/

/-- A soft reset, a hard reset, and gating that loses the state, of a block with a command in progress. -/
theorem witness_ResetLeavesTheResetValues :
    let s := issued .rleDec [0x81#8, 0x41#8] 4;
    (s.resetAsserted = false ∧ (1#32).getLsbD 0 = true ∧
      ∃ t, applyInput (.regWrite (s.platform.regBase + 0x010) 4 1#32) s = .next t) ∧
    (∃ t, applyInput .assertReset s = .next t) ∧ ∃ t, applyInput (.ungate false) s = .next t :=
  ⟨⟨rfl, rfl, _, rfl⟩, ⟨_, rfl⟩, ⟨_, rfl⟩⟩

theorem witness_ResetAbandonsTheCommand :
    let s := issued .rleDec [0x81#8, 0x41#8] 4
    s.regs.phase = .busy ∧ decode s.latched.cmd = .ok .rleDec ∧ s.resetAsserted = false ∧ (1#32).getLsbD 0 = true ∧
      (∃ t, applyInput (.regWrite (s.platform.regBase + 0x010) 4 1#32) s = .next t) ∧
      (∃ t, applyInput .assertReset s = .next t) ∧ s.latched.src.contains 0x11 = true :=
  ⟨rfl, rfl, rfl, rfl, ⟨_, rfl⟩, ⟨_, rfl⟩, rfl⟩

/-- A NOISE.INJ in place whose destination is one byte shorter than its source: the last source byte, at 0x12, is open too. -/
theorem witness_ResetAbandonsTheCommand_inPlace :
    let s := latching (issued (.noiseInj false) [0x00#8, 0xFF#8, 0x5A#8] 2) fun l => { l with dstAddr := l.srcAddr }
    s.regs.phase = .busy ∧ decode s.latched.cmd = .ok (.noiseInj false) ∧ (∃ t, applyInput .assertReset s = .next t) ∧
      s.mem.wf ∧ 0x12 < 2 ^ s.platform.aw ∧ s.latched.dstAddr = s.latched.srcAddr ∧ s.latched.src.contains 0x12 = true ∧
      s.latched.dst.contains 0x12 = false :=
  ⟨rfl, rfl, ⟨_, rfl⟩, by decide, by decide, rfl, rfl, rfl⟩

/-- A destination byte that no source window holds. -/
theorem witness_ResetAbandonsTheCommand_dst :
    let s := issued .rleDec [0x81#8, 0x41#8] 4
    s.regs.phase = .busy ∧ decode s.latched.cmd = .ok .rleDec ∧ (∃ t, applyInput .assertReset s = .next t) ∧ s.mem.wf ∧
      0x403 < 2 ^ s.platform.aw ∧ usesDst .rleDec = true ∧ s.latched.dst.contains 0x403 = true ∧
      s.latched.src.contains 0x403 = false :=
  ⟨rfl, rfl, ⟨_, rfl⟩, by decide, by decide, rfl, rfl, rfl⟩

/-! ### The whole machine -/

theorem witness_EngineWritesOnlyItsOutput :
    let s := issued .rleDec [0x81#8, 0x41#8] 4
    ∃ t, applyInput .engine s = .next t ∧ t.mem.read 0x400 ≠ s.mem.read 0x400 :=
  ⟨_, rfl, by decide⟩

/-- Each result register changes in some step. -/
theorem witness_ResultRegistersChangeOnlyByTheirCommands :
    (∃ t, step (issued (.hamCfg 4) [] 0) = .next t ∧ t.regs ≠ Regs.reset ∧ t.regs.hamK ≠ 0#16 ∧ t.regs.hamN ≠ 0#16) ∧
    (∃ t, step (configured (issued .hamSyn [0x80#8] 0) 4 3) = .next t ∧ t.regs ≠ Regs.reset ∧ t.regs.syndrome ≠ 0#16) ∧
    (∃ t, step (noisy 0x00640000#32 3) = .next t ∧ t.regs ≠ Regs.reset ∧ t.regs.outLen ≠ 0#32 ∧ t.regs.flipCount ≠ 0#32) ∧
    (∃ t, step (issued .hufDec [0x85#8, 0x98#8, 0x4C#8, 0x40#8] 4) = .next t ∧ t.regs ≠ Regs.reset ∧ t.regs.hufNodes ≠ 0#16) :=
  ⟨⟨_, rfl, by decide, by decide, by decide⟩, ⟨_, rfl, by decide, by decide⟩, ⟨_, rfl, by decide, by decide, by decide⟩,
    ⟨_, rfl, by decide, by decide⟩⟩

/-- Two states that differ in memory outside the source window, and in the working state. -/
theorem witness_ResultDependsOnlyOnTheOperands :
    let s1 := issued .rleDec [0x81#8, 0x41#8] 4
    let s2 := { s1 with mem := s1.mem.write 0x20 0xFF#8, scratch := ⟨⟨[.unset], 1, 2⟩, ⟨3, 4⟩, ⟨5#32, [6]⟩⟩ }
    s1.mem.wf ∧ s2.mem.wf ∧ s1.regs = s2.regs ∧ s1.regs.done = false ∧ s1.latched = s2.latched ∧ s1.platform = s2.platform ∧
      s1.draws = s2.draws ∧ s1.srcBytes = s2.srcBytes ∧
      (∃ t, exec .rleDec s1 = .next t ∧ t.regs.done = true ∧ 0 < t.regs.outLen.toNat) ∧ ∃ t, exec .rleDec s2 = .next t :=
  ⟨by decide, by decide, rfl, rfl, rfl, rfl, rfl, by decide, ⟨_, rfl, by decide, by decide⟩, ⟨_, rfl⟩⟩

/-- A command in progress; an idle block with other latched copies, whose next action is answered, faults, and is refused. -/
theorem witness_HiddenStateIsUnobservable :
    (∃ t, exec .hufDec (issued .hufDec [0x80#8] 4) = .next t) ∧
    ((issued .hufDec [0x80#8] 4).regs.phase = .busy ∧ ∃ t, step (issued .hufDec [0x80#8] 4) = .next t) ∧
    (State.reset.regs.phase = .idle ∧ (issued .hufDec [0x80#8] 4).latched ≠ State.reset.latched) ∧
    (∃ t, step { State.reset with inputs := [.regWrite 0x004 4 0#32] } = .next t ∧ t.regs.phase = .busy) ∧
    (∃ f, step { State.reset with inputs := [.memRead (2 ^ 32)] } = .fault f) ∧
    ∃ r, step { State.reset with inputs := [.regRead 0x004 2] } = .refused r :=
  ⟨⟨_, rfl⟩, ⟨rfl, _, rfl⟩, ⟨rfl, by decide⟩, ⟨_, rfl, rfl⟩, ⟨_, rfl⟩, ⟨_, rfl⟩⟩

/-- A write at the last byte of the source, a read at the last byte of the destination, a read of the source, and a change of
Admit. -/
theorem witness_DutiesWhileBusy :
    let s := issued .rleDec [0x81#8, 0x41#8] 4
    s.regs.phase = .busy ∧ decode s.latched.cmd = .ok .rleDec ∧ s.GuardsOk ∧
      (0x11 < 2 ^ s.platform.aw ∧ ∃ w ∈ usedWindows .rleDec s.latched, w.contains 0x11 = true) ∧
      (0x403 < 2 ^ s.platform.aw ∧ usesDst .rleDec = true ∧ s.latched.dst.contains 0x403 = true) ∧
      (∀ g ∈ s.guards, g.dst.contains 0x11 = false) ∧ [⟨0, 1⟩] ≠ s.platform.refused := by
  refine ⟨rfl, rfl, ?_, by decide, by decide, by decide, by decide⟩
  intro _ i hd
  have : decode (issued .rleDec [0x81#8, 0x41#8] 4).latched.cmd = .ok .rleDec := rfl
  rw [this] at hd
  cases hd
  decide

/-- A broken duty, and a duty kept. -/
theorem witness_OnlyBrokenDutiesFault :
    State.dutiful (issued .rleDec [0x81#8, 0x41#8] 4) (.memRead 0x400) = false ∧
      State.dutiful (issued .rleDec [0x81#8, 0x41#8] 4) (.memRead 0x10) = true := by decide

/-- The first and the last address, outside the windows of a command in progress. -/
theorem witness_HostDataAccessesOutsideTheWindows :
    let s := issued .rleDec [0x81#8, 0x41#8] 4
    s.mem.wf ∧ ∀ a ∈ [0, 2 ^ 32 - 1], a < 2 ^ s.platform.aw ∧
      ∀ g ∈ s.guards, g.src.contains a = false ∧ g.dst.contains a = false := by decide

/-- A state with a command in progress that meets the invariant, and its step. -/
theorem witness_StepKeepsTheInvariant :
    let s := issued .rleDec [0x81#8, 0x41#8] 4
    Inv s ∧ ∃ t, step s = .next t := by
  refine ⟨⟨⟨by decide, by decide⟩, ⟨by decide, by decide⟩, ⟨by decide, by decide, by decide, by decide⟩, ?_, .inl (by decide),
    ⟨by decide, by decide, by decide⟩, fun _ => rfl, (fun h => by cases h), witness_DutiesWhileBusy.2.2.1⟩, _, rfl⟩
  exact ⟨by decide, fun _ => ⟨rfl, rfl, rfl⟩, by decide, by decide, by decide⟩

end Sys2Proof.Tests
end

section
/-! PROOFS. HAM.SYN multiplies the block by the ParityMatrix (R122 to R124): a source window that fits passes the start checks, and
the unit's fold is a parity in each bit. -/
namespace Sys2Proof.Machine

/-! ## Windows that fit pass their start checks (R106, R108) -/

theorem Platform.Fits.outOfRange_eq_false {p : Platform} {w : AddrRange} (h : p.Fits w) : outOfRange p w = false := by
  obtain ⟨hlen, htop, -⟩ := h
  simp [outOfRange, Platform.bytes, hlen, htop]

theorem Platform.Fits.admitsAll_eq_true {p : Platform} {w : AddrRange} (h : p.Fits w) : p.admitsAll w = true := by
  obtain ⟨-, -, hadm⟩ := h
  exact (p.admitsAll_iff w).2 hadm

/-- R105: with a configuration, a source window that fits and a block inside it, HAM.SYN passes its start checks. -/
theorem startChecks_hamSyn_eq_none {s : State} (hk : s.regs.hamK ≠ 0#16) (hsrc : s.SrcFits)
    (hblock : s.latched.hamBitoff.toNat + s.regs.hamN.toNat ≤ 8 * s.latched.srcLen.toNat) : startChecks .hamSyn s = none := by
  refine (startChecks_eq_none _ _).2 ⟨?param, ?range, ?overlap, ?admission, ?length⟩
  case param => simp [paramCheck, hk]
  case range => simp [rangeCheck, usesSrc, usesDst, hsrc.outOfRange_eq_false]
  case overlap => simp [overlapCheck, usesDst]
  case admission => simp [admitCheck, usesSrc, usesDst, hsrc.admitsAll_eq_true]
  case length => simpa [lengthCheck, Latched.src] using hblock

/-! ## The stream of a window, and the parity of its bits (R7, R124) -/

/-- R7: a stream bit of the bytes of a window is the bit in memory. -/
theorem streamBit_readBytes (m : Memory) (a : Nat) {n t : Nat} (h : t < 8 * n) :
    streamBit (m.readBytes a n) t = m.bit a t := by
  have hbyte : t / 8 < n := by omega
  rw [streamBit, List.getD_eq_getElem?_getD, Memory.getElem?_readBytes, if_pos hbyte]
  rfl

/-- A sum modulo 2 is the parity of the number of ones. -/
theorem foldl_xor_eq_parity {α : Type} (f : α → Bool) (l : List α) (b : Bool) :
    l.foldl (fun p x => p ^^ f x) b = (b ^^ decide (l.countP f % 2 = 1)) := by
  induction l generalizing b with
  | nil => simp
  | cons x l ih =>
    rw [List.foldl_cons, ih, List.countP_cons, Bool.xor_assoc]
    congr 1
    cases f x with
    | false => simp
    | true =>
      rcases Nat.mod_two_eq_zero_or_one (l.countP f) with heven | hodd
      · simp [heven, Nat.add_mod]
      · simp [hodd, Nat.add_mod]

/-- R94, R122, R124: row `j` of the ParityMatrix times the block. -/
theorem syndromeOf_testBit_eq_parity (src : List Byte) (off n j : Nat) : (syndromeOf src off n).testBit j =
    decide ((List.range n).countP (fun t => streamBit src (off + t) && (t + 1).testBit j) % 2 = 1) := by
  rw [syndromeOf_testBit, foldl_xor_eq_parity (fun t => streamBit src (off + t) && (t + 1).testBit j), Bool.false_xor]

/-- R42: the syndrome of a 16-bit geometry loses no bit in SYNDROME.S. -/
theorem getLsbD_ofNat_syndromeOf (src : List Byte) (off : Nat) (n : BitVec 16) (j : Nat) :
    (BitVec.ofNat 16 (syndromeOf src off n.toNat)).getLsbD j = (syndromeOf src off n.toNat).testBit j := by
  rw [BitVec.getLsbD, BitVec.toNat_ofNat, Nat.mod_eq_of_lt (syndromeOf_lt src off n.isLt)]

/-- Settles O14: the unit's fold is, bit by bit, a sum modulo 2 over the positions that the row selects. -/
theorem hamSynMultipliesByTheMatrix : Obligations.HamSynMultipliesByTheMatrix := by
  intro s hk hsrc hblock
  refine ⟨BitVec.ofNat 16 (syndromeOf s.srcBytes s.latched.hamBitoff.toNat s.regs.hamN.toNat), ?_, fun j => ?_⟩
  · exact exec_of_none (startChecks_hamSyn_eq_none hk hsrc hblock)
  · rw [getLsbD_ofNat_syndromeOf, syndromeOf_testBit_eq_parity]
    congr 3
    refine List.countP_congr fun t ht => ?_
    have hn := List.mem_range.1 ht
    rw [State.srcBytes, streamBit_readBytes _ _ (by simp only [Latched.src]; omega), Latched.src]

end Sys2Proof.Machine
end

section
/-! PROOFS. A completion is a function of the operands (R2, R103): the start checks, the output and the registers. -/
namespace Sys2Proof.Machine

/-- R2, R103: what a command may use: two states agree on the registers, the latched copies, the platform, the free values and
the bytes of the source window. -/
structure AgreeOnOperands (s1 s2 : State) : Prop where
  regs : s1.regs = s2.regs
  latched : s1.latched = s2.latched
  platform : s1.platform = s2.platform
  draws : s1.draws = s2.draws
  srcBytes : s1.srcBytes = s2.srcBytes

/-- The bytes that a command whose start checks pass writes from its destination's first byte up (R165, R140, R184). -/
def outputOf (i : Instr) (s : State) : List Byte :=
  match i with
  | .nop => []
  | .hufDec => (hufDecode s.srcBytes s.latched.dst.len).out
  | .rleDec => (rleDecode s.srcBytes s.latched.dst.len).out
  | .hamCfg _ => []
  | .hamSyn => []
  | .noiseInj ent =>
    flipBytes (noiseSelect (s.noiseSeed ent) (8 * s.latched.src.len) (noiseCount s.latched.src.len s.latched.noiseLevel.toNat))
      0 s.srcBytes

/-- R61: a command that runs changes memory by its output alone. -/
theorem runOf_mem (i : Instr) (s : State) : (runOf i s).mem = s.mem.writeBytes s.latched.dst.base (outputOf i s) := by
  cases i with
  | hufDec => exact s.finishHuf_mem _
  | rleDec => exact s.finishRle_mem _
  | nop | hamCfg | hamSyn | noiseInj => rfl

/-- The registers after a completion, with the outcome of the operation's rule, are a function of those before. -/
theorem State.complete_regs_congr {s1 s2 : State} (h : s1.regs = s2.regs) (e : Option ErrCode) :
    (s1.complete e).regs = (s2.complete e).regs := by
  cases e <;> simp [h]

theorem State.complete_outLen (s : State) (e : Option ErrCode) : (s.complete e).regs.outLen = s.regs.outLen := by
  cases e <;> rfl

/-- R38: OUT_LEN counts the output. -/
theorem runOf_outLen {i : Instr} (s : State) (h : usesDst i = true) :
    (runOf i s).regs.outLen = BitVec.ofNat 32 (outputOf i s).length := by
  cases i with
  | hufDec => exact State.complete_outLen _ _
  | rleDec => exact State.complete_outLen _ _
  | noiseInj ent => simp [runOf, State.finishNoise, outputOf, State.srcBytes]
  | nop | hamCfg | hamSyn => cases h

section
variable {s1 s2 : State} (h : AgreeOnOperands s1 s2) (i : Instr)
include h

theorem AgreeOnOperands.startChecks : startChecks i s1 = startChecks i s2 := by
  simp only [Machine.startChecks, paramCheck, rangeCheck, overlapCheck, admitCheck, lengthCheck, h.regs, h.latched, h.platform]

theorem AgreeOnOperands.noiseSeed (ent : Bool) : s1.noiseSeed ent = s2.noiseSeed ent := by
  simp only [State.noiseSeed, h.draws, h.latched]

theorem AgreeOnOperands.outputOf : outputOf i s1 = outputOf i s2 := by
  simp only [Machine.outputOf, h.srcBytes, h.latched, h.noiseSeed]

theorem AgreeOnOperands.runOf_draws : (runOf i s1).draws = (runOf i s2).draws := by
  cases i with
  | noiseInj ent => simp [runOf, State.finishNoise, h.draws]
  | nop | hufDec | rleDec | hamCfg | hamSyn => simpa [runOf] using h.draws

theorem AgreeOnOperands.runOf_regs : (runOf i s1).regs = (runOf i s2).regs := by
  cases i with
  | hufDec =>
    simp only [runOf, State.finishHuf, h.srcBytes, h.latched]
    exact State.complete_regs_congr (by simp [h.regs]) _
  | rleDec =>
    simp only [runOf, State.finishRle, h.srcBytes, h.latched]
    exact State.complete_regs_congr (by simp [h.regs]) _
  | nop | hamCfg => simp [runOf, h.regs]
  | hamSyn => simp [runOf, h.regs, h.srcBytes, h.latched]
  | noiseInj ent => simp [runOf, State.finishNoise, h.regs, h.latched]

end

/-- The output of a command whose start checks pass stands in memory, whatever memory held before. -/
theorem read_runOf_output {i : Instr} {s : State} (hwf : s.mem.wf) (hd : usesDst i = true) {k : Nat}
    (hk : k < (runOf i s).regs.outLen.toNat) :
    (runOf i s).mem.read (s.latched.dstAddr.toNat + k) = (outputOf i s).getD k 0#8 := by
  have hlen : k < (outputOf i s).length := by
    rw [runOf_outLen s hd, BitVec.toNat_ofNat] at hk
    exact Nat.lt_of_lt_of_le hk (Nat.mod_le _ _)
  rw [runOf_mem, Memory.read_writeBytes _ _ hwf, if_pos (by simp only [Latched.dst]; omega)]
  simp [Latched.dst]

/-- Settles O43: the start checks, the registers and the output are functions of what the two states agree on. -/
theorem resultDependsOnlyOnTheOperands : Obligations.ResultDependsOnlyOnTheOperands := by
  intro i s1 s2 t1 t2 hwf1 hwf2 hregs hdone hlatched hplatform hdraws hsrc h1 h2
  have agree : AgreeOnOperands s1 s2 := ⟨hregs, hlatched, hplatform, hdraws, hsrc⟩
  cases hc : startChecks i s1 with
  | some e =>
    rw [exec_of_some hc] at h1
    rw [exec_of_some (agree.startChecks i ▸ hc)] at h2
    cases h1
    cases h2
    refine ⟨by simp [hregs], hdraws, fun _ ht => ?_⟩
    simp [hdone] at ht
  | none =>
    rw [exec_of_none hc] at h1
    rw [exec_of_none (agree.startChecks i ▸ hc)] at h2
    cases h1
    cases h2
    refine ⟨agree.runOf_regs i, agree.runOf_draws i, fun hd _ k hk => ?_⟩
    have hk2 : k < (runOf i s2).regs.outLen.toNat := agree.runOf_regs i ▸ hk
    rw [read_runOf_output hwf1 hd hk, hlatched, read_runOf_output hwf2 hd hk2, agree.outputOf i]

end Sys2Proof.Machine
end

section
/-! PROOFS. What a command's completion writes into the registers (R104), and what a step of any agent can do (R75, R202): the
facts that the statements about the whole state rest on. -/
namespace Sys2Proof.Machine

/-! ## The result registers (R38 to R40, R42, R45, R46) -/

/-- The registers that only a completion or a reset writes. -/
structure Results where
  outLen : Word
  hamK : BitVec 16
  hamR : BitVec 8
  hamN : BitVec 16
  syndrome : BitVec 16
  flipCount : Word
  hufPad : BitVec 8
  hufNodes : BitVec 16

/-- The result registers of a register file. -/
def Regs.results (r : Regs) : Results :=
  ⟨r.outLen, r.hamK, r.hamR, r.hamN, r.syndrome, r.flipCount, r.hufPad, r.hufNodes⟩

/-- The register file with other results. -/
def Regs.setResults (r : Regs) (x : Results) : Regs :=
  { r with
    outLen := x.outLen, hamK := x.hamK, hamR := x.hamR, hamN := x.hamN, syndrome := x.syndrome
    flipCount := x.flipCount, hufPad := x.hufPad, hufNodes := x.hufNodes }

@[simp] theorem Regs.results_setResults (r : Regs) (x : Results) : (r.setResults x).results = x := rfl

@[simp] theorem State.complete_results (s : State) (e : Option ErrCode) : (s.complete e).regs.results = s.regs.results := by
  cases e <;> rfl

/-- The result registers after a command whose start checks pass: each unit's line names all that it writes. -/
def resultsOf (i : Instr) (s : State) : Results :=
  match i with
  | .nop => s.regs.results
  | .hufDec =>
    let run := hufDecode s.srcBytes s.latched.dst.len
    { s.regs.results with
      outLen := BitVec.ofNat 32 run.out.length
      hufPad := BitVec.ofNat 8 run.pad
      hufNodes := BitVec.ofNat 16 run.work.arena.length }
  | .rleDec =>
    { s.regs.results with outLen := BitVec.ofNat 32 (rleDecode s.srcBytes s.latched.dst.len).out.length }
  | .hamCfg k =>
    { s.regs.results with
      hamK := BitVec.ofNat 16 k
      hamR := BitVec.ofNat 8 (parityBits k)
      hamN := BitVec.ofNat 16 (k + parityBits k)
      syndrome := 0#16 }
  | .hamSyn =>
    { s.regs.results with
      syndrome := BitVec.ofNat 16 (syndromeOf s.srcBytes s.latched.hamBitoff.toNat s.regs.hamN.toNat) }
  | .noiseInj _ =>
    { s.regs.results with
      flipCount := BitVec.ofNat 32 (noiseCount s.latched.src.len s.latched.noiseLevel.toNat)
      outLen := BitVec.ofNat 32 s.latched.src.len }

/-- The outcome of a command whose start checks pass: only the decoders can fail. -/
def outcomeOf (i : Instr) (s : State) : Option ErrCode :=
  match i with
  | .hufDec => (hufDecode s.srcBytes s.latched.dst.len).error
  | .rleDec => (rleDecode s.srcBytes s.latched.dst.len).error
  | .nop | .hamCfg _ | .hamSyn | .noiseInj _ => none

/-- R104: a command that runs changes the registers by its outcome and by its results alone. -/
theorem runOf_regs (i : Instr) (s : State) :
    (runOf i s).regs = (s.complete (outcomeOf i s)).regs.setResults (resultsOf i s) := by
  cases i with
  | hufDec =>
    simp only [runOf, State.finishHuf, outcomeOf]
    cases (hufDecode s.srcBytes s.latched.dst.len).error <;> rfl
  | rleDec =>
    simp only [runOf, State.finishRle, outcomeOf]
    cases (rleDecode s.srcBytes s.latched.dst.len).error <;> rfl
  | nop | hamCfg | hamSyn | noiseInj => rfl

theorem runOf_results (i : Instr) (s : State) : (runOf i s).regs.results = resultsOf i s := by
  rw [runOf_regs, Regs.results_setResults]

@[simp] theorem State.complete_phase (s : State) (e : Option ErrCode) : (s.complete e).regs.phase = .idle := by
  cases e <;> rfl

theorem State.complete_addresses (s : State) (e : Option ErrCode) :
    (s.complete e).regs.srcAddr = s.regs.srcAddr ∧ (s.complete e).regs.dstAddr = s.regs.dstAddr := by
  cases e <;> exact ⟨rfl, rfl⟩

@[simp] theorem runOf_phase (i : Instr) (s : State) : (runOf i s).regs.phase = .idle := by
  rw [runOf_regs]
  exact s.complete_phase _

/-- A completion leaves the block idle. -/
theorem exec_phase {i : Instr} {s t : State} (h : exec i s = .next t) : t.regs.phase = .idle := by
  rcases exec_cases h with ⟨-, h⟩ | ⟨e, -, h⟩ <;> cases h
  · exact runOf_phase i s
  · rfl

/-- R112: a register write leaves the result registers alone, but for a soft reset. -/
theorem State.writeReg_results (s : State) (r : Reg) (v : Word) :
    (s.writeReg r v).regs.results = s.regs.results ∨ s.writeReg r v = s.resetBlock := by
  cases r with
  | cmd => left; cases h : s.regs.phase <;> simp [State.writeReg, State.issue, h, Regs.accept, Regs.results]
  | ctrl =>
    simp only [State.writeReg]
    split
    · exact .inr rfl
    · exact .inl rfl
  | _ => exact .inl rfl

/-! ## What a step can do (R75, R202) -/

/-- The next states that one action can lead to. -/
inductive Effect (s : State) : State → Prop
  /-- The engine's turn. -/
  | turn {t : State} (h : engineTurn s = .next t) : Effect s t
  /-- A host looked at a register, at memory or at `irq`: while a command is in progress it stays guarded (R70). -/
  | looked (d : Word) (g : List Guard) (h : s.regs.phase = .busy → g = s.guards) :
      Effect s { s with hostData := d, guards := g }
  /-- A host wrote a register (R112). -/
  | wrote (r : Reg) (v : Word) (h : s.resetAsserted = false) : Effect s (s.writeReg r v)
  /-- Nothing happened: a write to a reserved offset, gating that kept the state, a change of Admit to what it was. -/
  | nothing : Effect s s
  /-- A host wrote a byte of data memory (R55). -/
  | stored (a : Nat) (v : Byte) (h : a < s.platform.bytes) : Effect s { s with mem := s.mem.write a v }
  /-- The block was reset (R212, R220), and the reset input is as given. -/
  | reset (asserted : Bool) : Effect s { s.resetBlock with resetAsserted := asserted }
  /-- The reset input was released (R220). -/
  | released : Effect s { s with resetAsserted := false }
  /-- The platform changed Admit (R62). -/
  | readmitted (refused : List AddrRange) : Effect s { s with platform := { s.platform with refused := refused } }

/-- R69: a block that shows a completion has no command in progress. -/
theorem Regs.showsCompletion_busy {r : Regs} (h : r.phase = .busy) : r.showsCompletion = false := by
  simp [Regs.showsCompletion, Regs.busy, h]

/-- What an action that neither faults nor is refused does. -/
theorem applyInput_effect {e : Input} {s t : State} (h : applyInput e s = .next t) : Effect s t := by
  cases e with
  | engine => exact .turn h
  | regRead addr bytes =>
    simp only [applyInput, hostRegRead] at h
    split at h <;> cases h
    exact .looked _ _ fun hb => by simp [State.guardsAfterRead, Regs.showsCompletion_busy hb]
  | regWrite addr bytes v =>
    simp only [applyInput, hostRegWrite] at h
    cases ho : s.regOffset addr bytes with
    | error r => simp [ho] at h
    | ok o =>
      obtain ⟨hrst, -⟩ := State.regOffset_ok ho
      simp only [ho, Host.Outcome.next.injEq] at h
      subst h
      rcases s.writeAt_cases o v with hw | ⟨r, -, hw⟩ <;> rw [hw]
      · exact .nothing
      · exact .wrote r v hrst
  | memRead a =>
    simp only [applyInput, hostMemRead] at h
    split at h
    · cases h
    · split at h <;> cases h
      exact .looked _ _ fun _ => rfl
  | memWrite a v =>
    simp only [applyInput, hostMemWrite] at h
    split at h
    · cases h
    · split at h <;> cases h
      exact .stored a v (by omega)
  | sampleIrq =>
    cases h
    exact .looked _ _ fun hb => by simp [Regs.showsCompletion_busy hb]
  | assertReset => cases h; exact .reset true
  | releaseReset => cases h; exact .released
  | setAdmit refused =>
    simp only [applyInput, platformSetAdmit] at h
    split at h
    · split at h <;> cases h
      exact .nothing
    · cases h
      exact .readmitted refused
  | ungate kept =>
    cases kept <;> cases h
    · exact .reset s.resetBlock.resetAsserted
    · exact .nothing

/-- What a step that neither faults nor is refused does, once the action is taken from the list. -/
theorem step_effect {s t : State} (h : step s = .next t) : ∃ rest, Effect { s with inputs := rest } t := by
  cases hi : s.inputs with
  | nil => exact ⟨s.inputs, .turn (step_nil hi ▸ h)⟩
  | cons e rest => exact ⟨rest, applyInput_effect (step_cons hi ▸ h)⟩

end Sys2Proof.Machine
end

section
/-! PROOFS. The invariant of the machine: it holds after reset, and every step keeps it. -/
namespace Sys2Proof.Machine

/-! ## Memory inside the address space (R55) -/

theorem State.MemoryOk.write {s : State} (h : s.MemoryOk) {a : Nat} (v : Byte) (ha : a < s.platform.bytes) :
    State.MemoryOk { s with mem := s.mem.write a v } := by
  obtain ⟨hwf, hkeys⟩ := h
  refine ⟨Memory.write_wf a v hwf, fun c hc => ?_⟩
  rcases Memory.mem_write hc with hc | rfl
  · exact hkeys c hc
  · exact ha

theorem State.MemoryOk.writeBytes {s : State} (h : s.MemoryOk) {a : Nat} {bytes : List Byte}
    (ha : ∀ k, k < bytes.length → a + k < s.platform.bytes) :
    State.MemoryOk { s with mem := s.mem.writeBytes a bytes } := by
  obtain ⟨hwf, hkeys⟩ := h
  refine ⟨Memory.writeBytes_wf a bytes hwf, fun c hc => ?_⟩
  rcases Memory.key_writeBytes hc with hc | ⟨hle, hlt⟩
  · exact hkeys c hc
  · have := ha (c.1 - a) (by omega)
    rwa [Nat.add_sub_cancel' hle] at this

/-- R223: an abandoned command leaves no byte outside the address space. -/
theorem State.MemoryOk.abandon {s : State} (h : s.MemoryOk) : s.abandon.MemoryOk := by
  unfold State.abandon
  split
  · obtain ⟨hwf, hkeys⟩ := h
    refine ⟨Memory.scramble_wf _ _ _ _ hwf, fun c hc => ?_⟩
    rcases Memory.key_scramble hc with hc | hopen
    · exact hkeys c hc
    · simp only [Bool.and_eq_true, decide_eq_true_eq] at hopen
      exact hopen.2
  · exact h

/-! ## What the start checks leave to a command that runs (R105 to R108) -/

theorem outOfRange_eq_false_iff (p : Platform) (w : AddrRange) :
    outOfRange p w = false ↔ w.len ≤ Config.lenMax ∧ w.base + w.len ≤ p.bytes := by
  simp [outOfRange]

theorem rangeCheck_eq_none_iff (i : Instr) (s : State) :
    rangeCheck i s = none ↔
    (usesSrc i = true → s.latched.src.len ≤ Config.lenMax ∧ s.latched.src.base + s.latched.src.len ≤ s.platform.bytes) ∧
      (usesDst i = true → s.latched.dst.len ≤ Config.lenMax ∧ s.latched.dst.base + s.latched.dst.len ≤ s.platform.bytes) := by
  simp only [rangeCheck, failsWith_eq_none, ← outOfRange_eq_false_iff, Bool.or_eq_false_iff, Bool.and_eq_false_imp]

/-- R61, R76: the output lies inside the destination window. -/
theorem outputOf_length_le {i : Instr} {s : State} (h : startChecks i s = none) :
    (outputOf i s).length ≤ s.latched.dst.len := by
  obtain ⟨-, -, -, -, hlength⟩ := (startChecks_eq_none i s).1 h
  cases i with
  | hufDec => exact hufDecode_out_length _ _
  | rleDec => exact rleDecode_out_length _ _
  | noiseInj ent =>
    simp only [lengthCheck, failsWith_eq_none, decide_eq_false_iff_not, Nat.not_lt] at hlength
    simpa [outputOf, State.srcBytes] using hlength
  | nop | hamCfg | hamSyn => simp [outputOf]

/-- A command that uses no destination window writes nothing. -/
theorem outputOf_eq_nil {i : Instr} (s : State) (h : usesDst i = false) : outputOf i s = [] := by
  cases i with
  | nop | hamCfg | hamSyn => rfl
  | hufDec | rleDec | noiseInj => cases h

/-- R55, R106: the output lies inside the address space. -/
theorem outputOf_fits {i : Instr} {s : State} (h : startChecks i s = none) {k : Nat} (hk : k < (outputOf i s).length) :
    s.latched.dst.base + k < s.platform.bytes := by
  obtain ⟨-, hrange, -⟩ := (startChecks_eq_none i s).1 h
  cases hd : usesDst i with
  | false => simp [outputOf_eq_nil s hd] at hk
  | true =>
    have hlen := outputOf_length_le h
    have htop := (((rangeCheck_eq_none_iff i s).1 hrange).2 hd).2
    omega

/-! ## The status bits (R23 to R30, R196) -/

theorem ErrCode.code_ne_zero (e : ErrCode) : e.code ≠ 0#8 := by cases e <;> decide

theorem ErrCode.code_mem_errorCodes (e : ErrCode) : e.code ∈ errorCodes := by cases e <;> decide

/-- R104: a completion leaves exactly one of DONE and ERR, with a code exactly for ERR. -/
theorem State.complete_statusOk {s : State} (h : s.regs.StatusOk) (hb : s.regs.phase = .busy) (e : Option ErrCode) :
    (s.complete e).regs.StatusOk := by
  obtain ⟨-, hbusy, -, -, hcode⟩ := h
  obtain ⟨hdone, herr, hzero⟩ := hbusy hb
  cases e with
  | none => exact ⟨by simp [herr], nofun, fun _ => hzero, by simp [herr], hcode⟩
  | some e => exact ⟨by simp [hdone], nofun, by simp [hdone], fun _ => e.code_ne_zero, e.code_mem_errorCodes⟩

/-- R31: clearing status bits keeps what they say. -/
theorem Regs.StatusOk.clearStatus {r : Regs} (h : r.StatusOk) (w : Word) : (r.clearStatus w).StatusOk := by
  obtain ⟨hexcl, hbusy, hdone, herr, hcode⟩ := h
  refine ⟨fun ⟨hd, he⟩ => hexcl ?_, fun hb => ?_, fun hd => hdone ?_, fun he => herr ?_, hcode⟩
  · simp only [Regs.clearStatus, Bool.and_eq_true] at hd he
    exact ⟨hd.1, he.1⟩
  · obtain ⟨hd, he, hz⟩ := hbusy hb
    simp [Regs.clearStatus, hd, he, hz]
  · simp only [Regs.clearStatus, Bool.and_eq_true] at hd
    exact hd.1
  · simp only [Regs.clearStatus, Bool.and_eq_true] at he
    exact he.1

/-! ## The Hamming configuration and the result registers (R38 to R46) -/

/-- R121: the geometry that HAM.CFG sets from a legal `k`. -/
theorem hammingOk_parityBits (r : Regs) {k : Nat} (h1 : 1 ≤ k) (hk : k ≤ Config.hamKMax) :
    Regs.HammingOk { r with
      hamK := BitVec.ofNat 16 k, hamR := BitVec.ofNat 8 (parityBits k), hamN := BitVec.ofNat 16 (k + parityBits k)
      syndrome := 0#16 } := by
  have hr := parityBits_le hk
  obtain ⟨hge, -, hmin⟩ := parityBits_spec k
  have hmax : Config.hamKMax = 65519 := rfl
  have hK : (BitVec.ofNat 16 k).toNat = k := Nat.mod_eq_of_lt (by omega)
  have hR : (BitVec.ofNat 8 (parityBits k)).toNat = parityBits k := Nat.mod_eq_of_lt (by omega)
  have hN : (BitVec.ofNat 16 (k + parityBits k)).toNat = k + parityBits k := Nat.mod_eq_of_lt (by omega)
  right
  simp only [hK, hR, hN]
  exact ⟨h1, hk, hge, hmin, trivial, Nat.two_pow_pos _⟩

theorem toNat_ofNat_le (w n : Nat) : (BitVec.ofNat w n).toNat ≤ n := by
  rw [BitVec.toNat_ofNat]
  exact Nat.mod_le _ _

/-- R125: the syndrome of a configured block has at most `r` bits. -/
theorem Regs.HammingOk.syndromeOf {r : Regs} (h : r.HammingOk) (hne : r.hamK ≠ 0#16) (src : List Byte) (off : Nat) :
    Regs.HammingOk { r with syndrome := BitVec.ofNat 16 (syndromeOf src off r.hamN.toNat) } := by
  rcases h with ⟨hzero, -⟩ | ⟨h1, hmax, hge, hmin, hsum, -⟩
  · exact absurd hzero hne
  · have hlt : r.hamN.toNat < 2 ^ r.hamR.toNat := by omega
    exact .inr ⟨h1, hmax, hge, hmin, hsum, Nat.lt_of_le_of_lt (toNat_ofNat_le _ _) (syndromeOf_lt src off hlt)⟩

theorem runOf_hammingOk {i : Instr} {s : State} (hc : startChecks i s = none) (h : s.regs.HammingOk) :
    (runOf i s).regs.HammingOk := by
  obtain ⟨hparam, -⟩ := (startChecks_eq_none i s).1 hc
  cases i with
  | nop | hufDec | rleDec | noiseInj => rw [runOf_regs]; exact h
  | hamCfg k =>
    simp only [paramCheck, failsWith_eq_none, Bool.or_eq_false_iff, beq_eq_false_iff_ne, decide_eq_false_iff_not] at hparam
    exact hammingOk_parityBits s.completeDone.regs (k := k) (by omega) (by omega)
  | hamSyn =>
    simp only [paramCheck, failsWith_eq_none, beq_eq_false_iff_ne] at hparam
    exact h.syndromeOf hparam _ _

theorem runOf_resultsOk {i : Instr} {s : State} (hc : startChecks i s = none) (h : s.regs.ResultsOk) :
    (runOf i s).regs.ResultsOk := by
  obtain ⟨hparam, hrange, -⟩ := (startChecks_eq_none i s).1 hc
  obtain ⟨hsrc, hdst⟩ := (rangeCheck_eq_none_iff i s).1 hrange
  have hout := Nat.le_trans (toNat_ofNat_le 32 _) (outputOf_length_le hc)
  obtain ⟨hlen, hflip, hnodes⟩ := h
  rw [runOf_regs]
  cases i with
  | nop | hamCfg | hamSyn => exact ⟨hlen, hflip, hnodes⟩
  | hufDec =>
    exact ⟨Nat.le_trans hout (hdst rfl).1, hflip, Nat.le_trans (toNat_ofNat_le 16 _) (hufDecode_nodes _ _)⟩
  | rleDec => exact ⟨Nat.le_trans hout (hdst rfl).1, hflip, hnodes⟩
  | noiseInj ent =>
    simp only [paramCheck, failsWith_eq_none, decide_eq_false_iff_not, Nat.not_lt] at hparam
    have hcount := noiseCount_le (len := s.latched.src.len) hparam
    have hmax := (hsrc rfl).1
    exact ⟨Nat.le_trans (toNat_ofNat_le 32 _) hmax, Nat.le_trans (toNat_ofNat_le 32 _) (by omega), hnodes⟩

/-! ## The registers after a reset (R53) -/

theorem Regs.reset_statusOk : Regs.reset.StatusOk := ⟨nofun, nofun, nofun, nofun, by decide⟩

theorem Regs.reset_hammingOk : Regs.reset.HammingOk := .inl ⟨rfl, rfl, rfl, rfl⟩

theorem Regs.reset_resultsOk : Regs.reset.ResultsOk := ⟨Nat.zero_le _, Nat.zero_le _, Nat.zero_le _⟩

/-! ## The engine's turn keeps the invariant -/

theorem Inv.resetAsserted_of_busy {s : State} (h : Inv s) (hb : s.regs.phase = .busy) : s.resetAsserted = false := by
  refine Bool.eq_false_iff.2 fun hr => ?_
  rw [h.reset hr] at hb
  cases hb

/-- A completion, with outcome `e` and results `x`, keeps the invariant when memory and the results meet theirs. -/
theorem Inv.completed {s t : State} {e : Option ErrCode} {x : Results} (h : Inv s) (hb : s.regs.phase = .busy)
    (hregs : t.regs = (s.complete e).regs.setResults x) (hlatched : t.latched = s.latched)
    (hreset : t.resetAsserted = s.resetAsserted) (hplatform : t.platform = s.platform) (hmem : t.MemoryOk)
    (hhamming : t.regs.HammingOk) (hresults : t.regs.ResultsOk) : Inv t := by
  obtain ⟨hsrc, hdst⟩ := s.complete_addresses e
  have hidle : t.regs.phase = .idle := hregs ▸ s.complete_phase e
  exact
    { platform := hplatform ▸ h.platform
      memory := hmem
      addresses := by
        simp only [State.AddressesOk, hregs, Regs.setResults, hsrc, hdst, hlatched, hplatform]
        exact h.addresses
      status := hregs ▸ s.complete_statusOk h.status hb e
      hamming := hhamming
      results := hresults
      latch := by simp [State.LatchOk, hidle]
      reset := by simp [State.ResetOk, hreset, h.resetAsserted_of_busy hb]
      guarded := by simp [State.GuardsOk, hidle] }

theorem Inv.completeError {s : State} (h : Inv s) (hb : s.regs.phase = .busy) (e : ErrCode) : Inv (s.completeError e) :=
  h.completed (e := some e) (x := s.regs.results) hb rfl rfl rfl rfl h.memory h.hamming h.results

theorem Inv.runOf {i : Instr} {s : State} (h : Inv s) (hb : s.regs.phase = .busy) (hc : startChecks i s = none) :
    Inv (runOf i s) := by
  obtain ⟨hlatched, hreset, hplatform, -⟩ := exec_frame (exec_of_none hc)
  have hmem : (Machine.runOf i s).MemoryOk := by
    simp only [State.MemoryOk, runOf_mem, hplatform]
    exact h.memory.writeBytes fun _ => outputOf_fits hc
  exact h.completed hb (runOf_regs i s) hlatched hreset hplatform hmem (runOf_hammingOk hc h.hamming)
    (runOf_resultsOk hc h.results)

theorem Inv.exec {i : Instr} {s t : State} (h : Inv s) (hb : s.regs.phase = .busy) (he : exec i s = .next t) : Inv t := by
  rcases exec_cases he with ⟨hc, ht⟩ | ⟨e, -, ht⟩ <;> cases ht
  · exact h.runOf hb hc
  · exact h.completeError hb e

theorem Inv.engineTurn {s t : State} (h : Inv s) (he : engineTurn s = .next t) : Inv t := by
  rcases engineTurn_cases he with ⟨-, ht⟩ | ⟨hb, -, ht⟩ | ⟨hb, i, -, ht⟩
  · cases ht; exact h
  · cases ht; exact h.completeError hb _
  · exact h.exec hb ht

/-! ## Register writes and resets keep the invariant -/

theorem Inv.accept {s : State} (h : Inv s) (hrst : s.resetAsserted = false) (w : Word) : Inv (s.accept w) where
  platform := h.platform
  memory := h.memory
  addresses := by
    obtain ⟨hsrc, hdst, -⟩ := h.addresses
    exact ⟨hsrc, hdst, hsrc, hdst⟩
  status := ⟨nofun, fun _ => ⟨rfl, rfl, rfl⟩, nofun, nofun, .head _⟩
  hamming := h.hamming
  results := h.results
  latch := fun _ => rfl
  reset := by simp [State.ResetOk, hrst]
  guarded := by
    intro _ i hd
    rw [State.accept_latched] at hd ⊢
    simp [Latched.guards, hd]

/-- R34, R36: an address register takes AW bits. -/
theorem Platform.address_lt (p : Platform) (v : Word) : (p.address v).toNat < 2 ^ p.aw := by
  have hle : (BitVec.ofNat 32 (2 ^ p.aw - 1)).toNat ≤ 2 ^ p.aw - 1 := toNat_ofNat_le _ _
  have hpos := Nat.two_pow_pos p.aw
  calc (p.address v).toNat ≤ (BitVec.ofNat 32 (2 ^ p.aw - 1)).toNat := by
        rw [Platform.address, BitVec.toNat_and]; exact Nat.and_le_right
    _ < 2 ^ p.aw := by omega

/-- R53, R223: every register takes its reset value, and an abandoned command keeps memory's form. -/
theorem Inv.resetBlock {s : State} (h : Inv s) (asserted : Bool) :
    Inv { s.resetBlock with resetAsserted := asserted } where
  platform := by simpa using h.platform
  memory := h.memory.abandon
  addresses := ⟨Nat.two_pow_pos _, Nat.two_pow_pos _, Nat.two_pow_pos _, Nat.two_pow_pos _⟩
  status := Regs.reset_statusOk
  hamming := Regs.reset_hammingOk
  results := Regs.reset_resultsOk
  latch := nofun
  reset := fun _ => rfl
  guarded := nofun

theorem Inv.writeReg {s : State} (h : Inv s) (hrst : s.resetAsserted = false) (r : Reg) (v : Word) : Inv (s.writeReg r v) := by
  have hnot : s.resetAsserted = true → False := by simp [hrst]
  obtain ⟨hsrc, hdst, hlsrc, hldst⟩ := h.addresses
  cases r with
  | cmd =>
    simp only [State.writeReg, State.issue]
    split
    · exact h.accept hrst v
    · exact { h with reset := fun hr => (hnot hr).elim }
  | status => exact { h with status := h.status.clearStatus v, reset := fun hr => (hnot hr).elim }
  | ctrl =>
    simp only [State.writeReg]
    split
    · exact h.resetBlock s.resetBlock.resetAsserted
    · exact h
  | srcAddr =>
    exact { h with
      addresses := ⟨s.platform.address_lt v, hdst, hlsrc, hldst⟩
      reset := fun hr => (hnot hr).elim }
  | dstAddr =>
    exact { h with
      addresses := ⟨hsrc, s.platform.address_lt v, hlsrc, hldst⟩
      reset := fun hr => (hnot hr).elim }
  | irqEn | srcLen | dstCap | hamBitoff | noiseLevel | noiseSeed => exact { h with reset := fun hr => (hnot hr).elim }
  | id | outLen | hamK | hamGeom | syndrome | flipCount | hufInfo => exact h

/-! ## The invariant -/

/-- What any agent does keeps the invariant. -/
theorem Inv.effect {s t : State} (h : Inv s) (he : Effect s t) : Inv t := by
  cases he with
  | turn he => exact h.engineTurn he
  | looked d g hg => exact { h with guarded := fun hb => hg hb ▸ h.guarded hb }
  | wrote r v hrst => exact h.writeReg hrst r v
  | nothing => exact h
  | stored a v ha => exact { h with memory := h.memory.write v ha }
  | reset asserted => exact h.resetBlock asserted
  | released => exact { h with reset := nofun }
  | readmitted refused => exact { h with }

/-- Settles O47: the next action is taken from the list, and whatever it does keeps the invariant. -/
theorem stepKeepsTheInvariant : Obligations.StepKeepsTheInvariant := by
  intro s t h hstep
  obtain ⟨rest, he⟩ := step_effect hstep
  have hrest : Inv { s with inputs := rest } := { h with }
  exact hrest.effect he

/-- Settles O48: memory is empty, and every register is 0. -/
theorem resetMeetsTheInvariant : Obligations.ResetMeetsTheInvariant where
  platform := ⟨by decide, by decide⟩
  memory := ⟨⟨.nil, nofun⟩, nofun⟩
  addresses := ⟨by decide, by decide, by decide, by decide⟩
  status := Regs.reset_statusOk
  hamming := Regs.reset_hammingOk
  results := Regs.reset_resultsOk
  latch := nofun
  reset := fun _ => rfl
  guarded := nofun

end Sys2Proof.Machine
end

section
/-! PROOFS. The register window (R20, R58): what a 32-bit access at an aligned offset reads and stores (R111, R112). -/
namespace Sys2Proof.Machine

/-! ## Accesses at word-aligned offsets (R58) -/

/-- A 32-bit access at a word-aligned offset of the window reaches that offset. -/
theorem State.regOffset_aligned {s : State} {o : Nat} (hrst : s.resetAsserted = false) (ho : o < 0x1000) (h4 : o % 4 = 0) :
    s.regOffset (s.platform.regBase + o) 4 = .ok o := by
  unfold State.regOffset
  rw [if_neg (by simp only [Config.windowBytes]; omega), if_neg (by simp [hrst]), if_neg (by simp; omega),
    Nat.add_sub_cancel_left]

/-- R20: every offset from 0x048 on is reserved. -/
theorem Reg.ofOffset_reserved {o : Nat} (h : 0x048 ≤ o) : Reg.ofOffset o = none := by
  refine List.find?_eq_none.2 fun r _ => ?_
  have : r.offset < 0x048 := by cases r <;> decide
  simp only [beq_iff_eq]
  omega

/-! ## Fields in their places -/

theorem getLsbD_bitAt (b : Bool) (i j : Nat) : (bitAt b i).getLsbD j = (decide (i = j) && (b && decide (j < 32))) := by
  cases b with
  | false => simp [bitAt]
  | true =>
    simp only [bitAt, Bool.toNat_true, BitVec.getLsbD_shiftLeft, BitVec.getLsbD_one, Bool.true_and, ← Bool.decide_and,
      ← decide_not]
    exact decide_eq_decide.2 (by omega)

/-- R40, R46: two fields, the upper one from bit 16 on, read as the number they spell. -/
theorem toNat_fields {w : Nat} (hw : w ≤ 16) (lo : BitVec w) (hi : BitVec 16) :
    (lo.setWidth 32 ||| (hi.setWidth 32 <<< 16)).toNat = lo.toNat + 65536 * hi.toNat := by
  have hlo : lo.toNat < 2 ^ 16 := Nat.lt_of_lt_of_le lo.isLt (Nat.pow_le_pow_right (by decide) hw)
  have hhi : hi.toNat <<< 16 < 2 ^ 32 := by rw [Nat.shiftLeft_eq]; omega
  rw [BitVec.toNat_or, BitVec.toNat_shiftLeft, BitVec.toNat_setWidth_of_le (by omega), BitVec.toNat_setWidth_of_le (by omega),
    Nat.mod_eq_of_lt hhi, Nat.or_comm, ← Nat.shiftLeft_add_eq_or_of_lt hlo, Nat.shiftLeft_eq]
  omega

/-! ## Register reads (R111) -/

/-- Settles O30: the access reaches its offset, and the map gives the register there. -/
theorem registerReadsHaveNoSideEffect : Obligations.RegisterReadsHaveNoSideEffect := by
  intro s o hrst ho h4
  refine ⟨s.regs.readAt o, s.guardsAfterRead o, by simp [applyInput, hostRegRead, State.regOffset_aligned hrst ho h4], ?_⟩
  refine ⟨?_, ?_, ?_, ?irqEn, ?_, ?_, ?_, ?_, ?_, ?_, ?hamK, ?hamGeom, ?_, ?syndrome, ?_, ?_, ?_, ?hufInfo, ?reserved⟩
  case irqEn =>
    rintro rfl
    change s.regs.irqEn.toNat = _
    cases hd : s.regs.doneIe <;> cases he : s.regs.errIe <;> simp [Regs.irqEn, hd, he, bitAt]
  case hamK => rintro rfl; exact BitVec.toNat_setWidth_of_le (by decide)
  case hamGeom => rintro rfl; exact toNat_fields (by decide) _ _
  case syndrome => rintro rfl; exact BitVec.toNat_setWidth_of_le (by decide)
  case hufInfo => rintro rfl; exact toNat_fields (by decide) _ _
  case reserved => intro h; simp [Regs.readAt, Reg.ofOffset_reserved h]
  -- each of the other registers reads as what it stores
  all_goals rintro rfl; rfl

/-- R30: ERRCODE stands in bits 15 to 8. -/
theorem getLsbD_errcode_field (code : BitVec 8) (j : Nat) :
    (code.setWidth 32 <<< 8).getLsbD j = (decide (8 ≤ j) && code.getLsbD (j - 8)) := by
  rw [BitVec.getLsbD_shiftLeft, BitVec.getLsbD_setWidth]
  by_cases h16 : j < 16
  · simp [show j < 32 by omega, show j - 8 < 32 by omega, ← decide_not]
  · simp [BitVec.getLsbD_of_ge code (j - 8) (by omega)]

/-- Settles O31: bits 6 to 0 are one field each, bits 15 to 8 are ERRCODE, and no field stands in another bit. -/
theorem statusReadsBitByBit : Obligations.StatusReadsBitByBit := by
  intro r j
  change r.status.getLsbD j = _
  simp only [Regs.status, BitVec.getLsbD_or, getLsbD_bitAt, getLsbD_errcode_field]
  by_cases hj : j < 8
  · interval_cases j <;> simp [Regs.busy, Regs.synNz, Regs.synOvr, Regs.hamRdy, bne, beq_eq_decide]
  · have hne : ∀ i, i < 8 → decide (i = j) = false := fun i hi => decide_eq_false (by omega)
    have hne' : ∀ i, i < 8 → j ≠ i := fun i hi => by omega
    have hge : 8 ≤ j := by omega
    by_cases h16 : j < 16
    · simp [hne, hne', hge, h16]
    · simp [hne, hne', hge, h16, BitVec.getLsbD_of_ge r.errcode (j - 8) (by omega)]

/-! ## Register writes (R112) -/

/-- A 32-bit write at a register's offset is its effect. -/
theorem applyInput_regWrite {s : State} (r : Reg) (v : Word) (hrst : s.resetAsserted = false) :
    applyInput (.regWrite (s.platform.regBase + r.offset) 4 v) s = .next (s.writeReg r v) :=
  hostRegWrite_reg r v hrst

/-- R33: CTRL acts on bit 0 of the word alone. -/
theorem State.writeReg_ctrl (s : State) (v : Word) :
    s.writeReg .ctrl v = if v.getLsbD 0 then s.resetBlock else s := rfl

/-- Settles O32: a bit is cleared by AND with the inverse of the written bit. -/
theorem statusWriteClearsWrittenBits : Obligations.StatusWriteClearsWrittenBits := by
  intro s w hrst
  refine ⟨_, applyInput_regWrite .status w hrst, ?_, fun j hj => ?_⟩
  · have hclear : ∀ old written : Bool, (old && !written) = if written then false else old := by decide
    simp only [State.writeReg, Regs.clearStatus, hclear]
  · rw [statusReadsBitByBit]
    rcases hj with rfl | hj
    · rfl
    · simp only [show j ≠ 0 ∧ j ≠ 1 ∧ j ≠ 2 ∧ j ≠ 3 ∧ j ≠ 4 ∧ j ≠ 5 ∧ j ≠ 6 ∧ j ≠ 7 ∧ ¬ j < 16 by omega, if_false]

/-- R34, R36: an address register keeps the low AW bits. -/
theorem Platform.toNat_address {p : Platform} (h : p.Legal) (v : Word) : (p.address v).toNat = v.toNat % 2 ^ p.aw := by
  obtain ⟨-, h32⟩ := h
  have hle : 2 ^ p.aw ≤ 2 ^ 32 := Nat.pow_le_pow_right (by decide) h32
  rw [Platform.address, BitVec.toNat_and, BitVec.toNat_ofNat, Nat.mod_eq_of_lt (a := 2 ^ p.aw - 1) (by omega),
    Nat.and_two_pow_sub_one_eq_mod]

/-- R32: IRQ_EN reads as the two bits it stores. -/
theorem irqEn_eq_and {r : Regs} {v : Word} (hd : r.doneIe = v.getLsbD 0) (he : r.errIe = v.getLsbD 1) :
    r.irqEn = v &&& 0x3#32 := by
  have h3 : 0x3#32 = bitAt true 0 ||| bitAt true 1 := by decide
  apply BitVec.eq_of_getLsbD_eq
  intro j hj
  simp only [h3, Regs.irqEn, hd, he, BitVec.getLsbD_and, BitVec.getLsbD_or, getLsbD_bitAt]
  match j with
  | 0 => simp
  | 1 => simp
  | j + 2 => simp

/-- Settles O33: each write is the register's own effect. -/
theorem registerWritesStore : Obligations.RegisterWritesStore := by
  intro s v hrst hlegal
  exact ⟨⟨applyInput_regWrite .irqEn v hrst, fun r => irqEn_eq_and⟩,
    ⟨s.platform.address v, Platform.toNat_address hlegal v, applyInput_regWrite .srcAddr v hrst,
      applyInput_regWrite .dstAddr v hrst⟩,
    applyInput_regWrite .srcLen v hrst, applyInput_regWrite .dstCap v hrst, applyInput_regWrite .hamBitoff v hrst,
    applyInput_regWrite .noiseLevel v hrst, applyInput_regWrite .noiseSeed v hrst⟩

/-- Settles O34: the write reaches its offset, where there is no register or one that stores nothing. -/
theorem readOnlyRegistersIgnoreWrites : Obligations.ReadOnlyRegistersIgnoreWrites := by
  intro s v o hrst ho h4 hcases
  suffices hw : s.writeAt o v = s by simp [applyInput, hostRegWrite, State.regOffset_aligned hrst ho h4, hw]
  rcases hcases with hmem | hres | ⟨rfl, hv⟩
  · simp only [List.mem_cons, List.not_mem_nil, or_false] at hmem
    rcases hmem with rfl | rfl | rfl | rfl | rfl | rfl | rfl <;> rfl
  · simp [State.writeAt, Reg.ofOffset_reserved hres]
  · change s.writeReg .ctrl v = s
    rw [State.writeReg_ctrl, hv]
    rfl

/-! ## Resets (R212, R220, R222) -/

/-- R53: after a reset every register but ID reads 0. -/
theorem Regs.read_reset {reg : Reg} (h : reg ≠ .id) : Regs.reset.read reg = 0#32 := by
  cases reg with
  | id => exact absurd rfl h
  | _ => rfl

/-- Settles O39: each of the three ways is the block's reset, with the reset input as the way leaves it. -/
theorem resetLeavesTheResetValues : Obligations.ResetLeavesTheResetValues := by
  intro s t v hways
  have ht : ∃ asserted, t = { s.resetBlock with resetAsserted := asserted } := by
    rcases hways with ⟨hrst, hv, hw⟩ | hw | hw
    · have hsoft := (applyInput_regWrite .ctrl v hrst).symm.trans hw
      rw [State.writeReg_ctrl, hv] at hsoft
      cases hsoft
      exact ⟨s.resetBlock.resetAsserted, rfl⟩
    · cases hw; exact ⟨true, rfl⟩
    · cases hw; exact ⟨s.resetBlock.resetAsserted, rfl⟩
  obtain ⟨asserted, rfl⟩ := ht
  exact ⟨fun _ => Regs.read_reset, rfl, rfl, Bool.and_false _, s.resetBlock_platform,
    fun hidle => by simp [State.abandon_idle hidle]⟩

end Sys2Proof.Machine
end

section
/-! PROOFS. What does not reach what: operand writes and the command in progress (R49, R227), steps and the result registers
(R38 to R46), the hidden state and what a host can see (R49 to R51, R53). -/
namespace Sys2Proof.Machine

/-! ## The engine's turn, case by case (R104, R105) -/

theorem engineTurn_idle {s : State} (h : s.regs.phase = .idle) : engineTurn s = .next s := by
  simp [engineTurn, h]

theorem engineTurn_error {s : State} {r : IllegalWord} (hb : s.regs.phase = .busy) (hd : decode s.latched.cmd = .error r) :
    engineTurn s = .next (s.completeError .illegalCmd) := by
  simp [engineTurn, hb, hd]

theorem engineTurn_ok {s : State} {i : Instr} (hb : s.regs.phase = .busy) (hd : decode s.latched.cmd = .ok i) :
    engineTurn s = exec i s := by
  simp [engineTurn, hb, hd]

/-! ## Operand registers and IRQ_EN (R227) -/

/-- The registers that a host writes and the completion of a command in progress does not read. -/
structure Operands where
  doneIe : Bool
  errIe : Bool
  srcAddr : Word
  srcLen : Word
  dstAddr : Word
  dstCap : Word
  hamBitoff : Word
  noiseLevel : Word
  noiseSeed : Word

/-- The operand registers of a register file. -/
def Regs.operands (r : Regs) : Operands :=
  ⟨r.doneIe, r.errIe, r.srcAddr, r.srcLen, r.dstAddr, r.dstCap, r.hamBitoff, r.noiseLevel, r.noiseSeed⟩

/-- The register file with other operands. -/
def Regs.setOperands (r : Regs) (x : Operands) : Regs :=
  { r with
    doneIe := x.doneIe, errIe := x.errIe, srcAddr := x.srcAddr, srcLen := x.srcLen, dstAddr := x.dstAddr
    dstCap := x.dstCap, hamBitoff := x.hamBitoff, noiseLevel := x.noiseLevel, noiseSeed := x.noiseSeed }

/-- The state with its operand registers updated by `g`. -/
def State.mapOperands (s : State) (g : Operands → Operands) : State :=
  { s with regs := s.regs.setOperands (g s.regs.operands) }

/-- The registers of R227. -/
def Reg.isOperand (r : Reg) : Bool :=
  r ∈ [Reg.irqEn, .srcAddr, .srcLen, .dstAddr, .dstCap, .hamBitoff, .noiseLevel, .noiseSeed]

/-- R112: on one platform a write of an operand register or IRQ_EN is one update of these registers. -/
theorem writeReg_eq_mapOperands {r : Reg} (h : r.isOperand = true) (p : Platform) (v : Word) :
    ∃ g, ∀ s : State, s.platform = p → s.writeReg r v = s.mapOperands g := by
  cases r with
  | irqEn => exact ⟨fun x => { x with doneIe := v.getLsbD 0, errIe := v.getLsbD 1 }, fun _ _ => rfl⟩
  | srcAddr => exact ⟨fun x => { x with srcAddr := p.address v }, fun _ hp => hp ▸ rfl⟩
  | srcLen => exact ⟨fun x => { x with srcLen := v }, fun _ _ => rfl⟩
  | dstAddr => exact ⟨fun x => { x with dstAddr := p.address v }, fun _ hp => hp ▸ rfl⟩
  | dstCap => exact ⟨fun x => { x with dstCap := v }, fun _ _ => rfl⟩
  | hamBitoff => exact ⟨fun x => { x with hamBitoff := v }, fun _ _ => rfl⟩
  | noiseLevel => exact ⟨fun x => { x with noiseLevel := v }, fun _ _ => rfl⟩
  | noiseSeed => exact ⟨fun x => { x with noiseSeed := v }, fun _ _ => rfl⟩
  | id | cmd | status | ctrl | outLen | hamK | hamGeom | syndrome | flipCount | hufInfo => cases h

section
variable (s : State) (g : Operands → Operands)

theorem State.complete_mapOperands (e : Option ErrCode) : (s.mapOperands g).complete e = (s.complete e).mapOperands g := by
  cases e <;> rfl

/-- The start checks read the latched copies. -/
theorem startChecks_mapOperands (i : Instr) : startChecks i (s.mapOperands g) = startChecks i s := by
  cases i <;> rfl

/-- The units read the latched copies. -/
theorem runOf_mapOperands (i : Instr) : runOf i (s.mapOperands g) = (runOf i s).mapOperands g := by
  cases i with
  | hufDec => simp only [runOf, State.finishHuf, ← State.complete_mapOperands]; rfl
  | rleDec => simp only [runOf, State.finishRle, ← State.complete_mapOperands]; rfl
  | nop | hamCfg | hamSyn | noiseInj => rfl

end

theorem exec_mapOperands {i : Instr} {s t : State} (g : Operands → Operands) (h : exec i s = .next t) :
    exec i (s.mapOperands g) = .next (t.mapOperands g) := by
  rcases exec_cases h with ⟨hc, ht⟩ | ⟨e, hc, ht⟩ <;> cases ht
  · rw [exec_of_none ((startChecks_mapOperands s g i).trans hc), runOf_mapOperands]
  · exact exec_of_some ((startChecks_mapOperands s g i).trans hc)

/-- An update of the operand registers commutes with the engine's turn. -/
theorem engineTurn_mapOperands {s t : State} (g : Operands → Operands) (h : engineTurn s = .next t) :
    engineTurn (s.mapOperands g) = .next (t.mapOperands g) := by
  rcases engineTurn_cases h with ⟨hidle, ht⟩ | ⟨hb, ⟨r, hd⟩, ht⟩ | ⟨hb, i, hd, he⟩
  · cases ht
    exact engineTurn_idle hidle
  · cases ht
    exact engineTurn_error hb hd
  · exact (engineTurn_ok (s := s.mapOperands g) hb hd).trans (exec_mapOperands g he)

/-- The engine's turn leaves the platform and the reset input alone. -/
theorem engineTurn_frame {s t : State} (h : engineTurn s = .next t) :
    t.platform = s.platform ∧ t.resetAsserted = s.resetAsserted := by
  rcases engineTurn_cases h with ⟨-, ht⟩ | ⟨-, -, ht⟩ | ⟨-, i, -, hi⟩
  · cases ht; exact ⟨rfl, rfl⟩
  · cases ht; exact ⟨rfl, rfl⟩
  · obtain ⟨-, hreset, hplatform, -⟩ := exec_frame hi
    exact ⟨hplatform, hreset⟩

/-- R20: the offsets of R227's registers. -/
theorem operand_of_offset {o : Nat} (h : o ∈ [0x00C, 0x014, 0x018, 0x01C, 0x020, 0x030, 0x038, 0x03C]) :
    ∃ r : Reg, r.isOperand = true ∧ r.offset = o := by
  simp only [List.mem_cons, List.not_mem_nil, or_false] at h
  rcases h with rfl | rfl | rfl | rfl | rfl | rfl | rfl | rfl
  exacts [⟨.irqEn, rfl, rfl⟩, ⟨.srcAddr, rfl, rfl⟩, ⟨.srcLen, rfl, rfl⟩, ⟨.dstAddr, rfl, rfl⟩, ⟨.dstCap, rfl, rfl⟩,
    ⟨.hamBitoff, rfl, rfl⟩, ⟨.noiseLevel, rfl, rfl⟩, ⟨.noiseSeed, rfl, rfl⟩]

/-- Settles O37: the write is an update of the operand registers, and the completion commutes with each of these. -/
theorem operandWritesDoNotReachTheCommand : Obligations.OperandWritesDoNotReachTheCommand := by
  intro s a b o v hrst _ ho ha hb
  obtain ⟨r, hr, rfl⟩ := operand_of_offset ho
  obtain ⟨g, hg⟩ := writeReg_eq_mapOperands hr s.platform v
  obtain ⟨hplatform, hreset⟩ := engineTurn_frame hb
  rw [applyInput_regWrite r v hrst, hg s rfl] at ha
  cases ha
  refine ⟨b.mapOperands g, engineTurn_mapOperands g hb, ?_⟩
  rw [← hplatform, applyInput_regWrite r v (hreset.trans hrst), hg b hplatform]

/-! ## The result registers (R38 to R46) -/

/-- A completion changes the result registers as its unit says, or not at all. -/
theorem exec_results {i : Instr} {s t : State} (h : exec i s = .next t) :
    t.regs.results = s.regs.results ∨ t.regs.results = resultsOf i s := by
  rcases exec_cases h with ⟨-, ht⟩ | ⟨e, -, ht⟩ <;> cases ht
  · exact .inr (runOf_results i s)
  · exact .inl rfl

/-- The result registers change by the completion of a command in progress, or by a reset, or not at all. -/
theorem Effect.results {s t : State} (h : Effect s t) : t.regs.results = s.regs.results ∨ t.regs = Regs.reset ∨
    (s.regs.phase = .busy ∧ t.regs.phase = .idle ∧ ∃ i, decode s.latched.cmd = .ok i ∧ t.regs.results = resultsOf i s) := by
  cases h with
  | turn h =>
    rcases engineTurn_cases h with ⟨-, ht⟩ | ⟨-, -, ht⟩ | ⟨hb, i, hd, he⟩
    · cases ht; exact .inl rfl
    · cases ht; exact .inl rfl
    · rcases exec_results he with hsame | hres
      · exact .inl hsame
      · exact .inr (.inr ⟨hb, exec_phase he, i, hd, hres⟩)
  | wrote r v =>
    rcases s.writeReg_results r v with hsame | hreset
    · exact .inl hsame
    · rw [hreset]; exact .inr (.inl rfl)
  | reset => exact .inr (.inl rfl)
  | looked | nothing | stored | released | readmitted => exact .inl rfl

/-- Settles O42: in the step of a completion, the registers that change are those its command's line of `resultsOf` names; in every
other step that is no reset, none does. -/
theorem resultRegistersChangeOnlyByTheirCommands : Obligations.ResultRegistersChangeOnlyByTheirCommands := by
  intro s t hstep hne
  obtain ⟨rest, he⟩ := step_effect hstep
  rcases he.results with hsame | hreset | ⟨hb, hidle, i, hd, hres⟩
  · simp only [Regs.results, Results.mk.injEq] at hsame
    simp [hsame]
  · exact absurd hreset hne
  · change s.regs.phase = .busy at hb
    change decode s.latched.cmd = .ok i at hd
    rw [hd]
    cases i with
    | nop | hufDec | rleDec | hamCfg | hamSyn | noiseInj =>
      simp only [Regs.results, resultsOf, Results.mk.injEq] at hres
      simp [hres, hb, hidle]

/-! ## The hidden state (R49 to R51, R53) -/

/-- `s'` is `s` but for the hidden state: the working state, and with no command in progress the latched copies. -/
def SameVisible (s s' : State) : Prop :=
  ∃ x l, s' = { s with scratch := x, latched := l } ∧ (s.regs.phase = .busy → l = s.latched)

/-- Two outcomes are the same fault, the same refusal, or next states that differ in the hidden state alone. -/
def SameAnswer : Outcome → Outcome → Prop
  | .next t, .next t' => SameVisible t t'
  | .fault f, .fault f' => f = f'
  | .refused r, .refused r' => r = r'
  | _, _ => False

theorem SameVisible.refl (s : State) : SameVisible s s := ⟨s.scratch, s.latched, rfl, fun _ => rfl⟩

/-- The working state of a unit reaches nothing but the working state. -/
theorem runOf_scratch (i : Instr) (s : State) (x : Scratch) :
    ∃ y, runOf i { s with scratch := x } = { runOf i s with scratch := y } := by
  refine ⟨(runOf i { s with scratch := x }).scratch, ?_⟩
  cases i with
  | hufDec =>
    simp only [runOf, State.finishHuf, State.complete_scratch, State.srcBytes]
    cases (hufDecode (s.mem.readBytes s.latched.src.base s.latched.src.len) s.latched.dst.len).error <;> rfl
  | rleDec =>
    simp only [runOf, State.finishRle, State.complete_scratch, State.srcBytes]
    cases (rleDecode (s.mem.readBytes s.latched.src.base s.latched.src.len) s.latched.dst.len).error <;> rfl
  | nop | hamCfg | hamSyn | noiseInj => rfl

/-- A completion differs in the working state alone, whatever that was. -/
theorem exec_scratch {i : Instr} {s t : State} (x : Scratch) (h : exec i s = .next t) :
    ∃ y, exec i { s with scratch := x } = .next { t with scratch := y } := by
  have hchecks : startChecks i { s with scratch := x } = startChecks i s := rfl
  rcases exec_cases h with ⟨hc, ht⟩ | ⟨e, hc, ht⟩ <;> cases ht
  · obtain ⟨y, hy⟩ := runOf_scratch i s x
    exact ⟨y, by rw [exec_of_none (hchecks.trans hc), hy]⟩
  · exact ⟨x, exec_of_some (hchecks.trans hc)⟩

/-! ### Each agent's action answers alike -/

theorem SameVisible.answer {t t' : State} (h : SameVisible t t') : SameAnswer (.next t) (.next t') := h

theorem SameAnswer.refl (o : Outcome) : SameAnswer o o := by
  cases o with
  | next t => exact (SameVisible.refl t).answer
  | fault f => exact rfl
  | refused r => exact rfl

theorem SameVisible.engineTurn {s s' : State} (h : SameVisible s s') : SameAnswer (engineTurn s) (engineTurn s') := by
  obtain ⟨x, l, rfl, hl⟩ := h
  cases hp : s.regs.phase with
  | idle =>
    rw [engineTurn_idle hp, engineTurn_idle (s := { s with scratch := x, latched := l }) hp]
    exact ⟨x, l, rfl, hl⟩
  | busy =>
    obtain rfl := hl hp
    cases hd : decode s.latched.cmd with
    | error r =>
      rw [engineTurn_error hp hd, engineTurn_error (s := { s with scratch := x }) hp hd]
      exact ⟨x, s.latched, rfl, fun _ => rfl⟩
    | ok i =>
      rw [engineTurn_ok hp hd, engineTurn_ok (s := { s with scratch := x }) hp hd]
      rcases exec_cases (rfl : exec i s = _) with ⟨-, ht⟩ | ⟨e, -, ht⟩
      all_goals
        obtain ⟨y, hy⟩ := exec_scratch x ht
        rw [ht, hy]
        exact ⟨y, _, rfl, fun _ => rfl⟩

/-- A reset gives the hidden state its reset value, and only a command in progress leaves a trace of its copies (R223). -/
theorem SameVisible.resetBlock_eq {s s' : State} (h : SameVisible s s') : s'.resetBlock = s.resetBlock := by
  obtain ⟨x, l, rfl, hl⟩ := h
  cases hp : s.regs.phase with
  | idle =>
    simp only [State.resetBlock, State.abandon_idle hp,
      State.abandon_idle (s := { s with scratch := x, latched := l }) hp]
  | busy =>
    obtain rfl := hl hp
    simp only [State.resetBlock, State.abandon, hp]
    split <;> rfl

theorem SameVisible.writeReg {s s' : State} (h : SameVisible s s') (r : Reg) (v : Word) :
    SameVisible (s.writeReg r v) (s'.writeReg r v) := by
  have hreset := h.resetBlock_eq
  obtain ⟨x, l, rfl, hl⟩ := h
  cases r with
  | cmd =>
    simp only [State.writeReg, State.issue]
    cases hp : s.regs.phase with
    | idle => exact ⟨x, _, rfl, fun _ => rfl⟩
    | busy => exact ⟨x, l, rfl, fun _ => hl hp⟩
  | ctrl =>
    simp only [State.writeReg_ctrl, hreset]
    split
    · exact SameVisible.refl _
    · exact ⟨x, l, rfl, hl⟩
  | _ => exact ⟨x, l, rfl, hl⟩

section
variable {s s' : State} (h : SameVisible s s')
include h

theorem SameVisible.hostRegRead (addr bytes : Nat) : SameAnswer (hostRegRead s addr bytes) (hostRegRead s' addr bytes) := by
  obtain ⟨x, l, rfl, hl⟩ := h
  have ho : State.regOffset { s with scratch := x, latched := l } addr bytes = s.regOffset addr bytes := rfl
  simp only [Machine.hostRegRead, ho]
  cases s.regOffset addr bytes with
  | error r => exact SameAnswer.refl _
  | ok o => exact ⟨x, l, rfl, hl⟩

theorem SameVisible.hostRegWrite (addr bytes : Nat) (v : Word) :
    SameAnswer (hostRegWrite s addr bytes v) (hostRegWrite s' addr bytes v) := by
  have ho : s'.regOffset addr bytes = s.regOffset addr bytes := by obtain ⟨x, l, rfl, -⟩ := h; rfl
  simp only [Machine.hostRegWrite, ho, State.writeAt]
  cases s.regOffset addr bytes with
  | error r => exact SameAnswer.refl _
  | ok o =>
    dsimp only
    cases Reg.ofOffset o with
    | none => exact h.answer
    | some r => exact (h.writeReg r v).answer

theorem SameVisible.hostMemRead (a : Nat) : SameAnswer (hostMemRead s a) (hostMemRead s' a) := by
  obtain ⟨x, l, rfl, hl⟩ := h
  have hr : State.readRaces { s with scratch := x, latched := l } a = s.readRaces a := rfl
  simp only [Machine.hostMemRead, hr]
  split
  · exact SameAnswer.refl _
  · split
    · exact SameAnswer.refl _
    · exact ⟨x, l, rfl, hl⟩

theorem SameVisible.hostMemWrite (a : Nat) (v : Byte) : SameAnswer (hostMemWrite s a v) (hostMemWrite s' a v) := by
  obtain ⟨x, l, rfl, hl⟩ := h
  have hr : State.writeRaces { s with scratch := x, latched := l } a = s.writeRaces a := rfl
  simp only [Machine.hostMemWrite, hr]
  split
  · exact SameAnswer.refl _
  · split
    · exact SameAnswer.refl _
    · exact ⟨x, l, rfl, hl⟩

theorem SameVisible.platformSetAdmit (refused : List AddrRange) :
    SameAnswer (platformSetAdmit s refused) (platformSetAdmit s' refused) := by
  obtain ⟨x, l, rfl, hl⟩ := h
  simp only [Machine.platformSetAdmit]
  split
  · split
    · exact ⟨x, l, rfl, hl⟩
    · exact SameAnswer.refl _
  · exact ⟨x, l, rfl, hl⟩

theorem SameVisible.applyInput (e : Input) : SameAnswer (applyInput e s) (applyInput e s') := by
  have hreset := h.resetBlock_eq
  cases e with
  | engine => exact h.engineTurn
  | regRead addr bytes => exact h.hostRegRead addr bytes
  | regWrite addr bytes v => exact h.hostRegWrite addr bytes v
  | memRead a => exact h.hostMemRead a
  | memWrite a v => exact h.hostMemWrite a v
  | setAdmit refused => exact h.platformSetAdmit refused
  | sampleIrq | releaseReset =>
    obtain ⟨x, l, rfl, hl⟩ := h
    exact SameVisible.answer ⟨x, l, rfl, hl⟩
  | assertReset =>
    simp only [Machine.applyInput, platformAssertReset, hreset]
    exact SameAnswer.refl _
  | ungate kept =>
    cases kept with
    | true => exact h
    | false =>
      simp only [Machine.applyInput, platformUngate, hreset]
      exact SameAnswer.refl _

theorem SameVisible.step : SameAnswer (step s) (step s') := by
  have hrest : ∀ rest, SameVisible { s with inputs := rest } { s' with inputs := rest } := by
    obtain ⟨x, l, rfl, hl⟩ := h
    exact fun rest => ⟨x, l, rfl, hl⟩
  have hi : s'.inputs = s.inputs := by obtain ⟨x, l, rfl, -⟩ := h; rfl
  cases hs : s.inputs with
  | nil => rw [step_nil hs, step_nil (hi.trans hs)]; exact h.engineTurn
  | cons e rest => rw [step_cons hs, step_cons (hi.trans hs)]; exact (hrest rest).applyInput e

end

/-! ### What an answer alike is -/

theorem SameAnswer.of_next {t : State} {o : Outcome} (h : SameAnswer (.next t) o) :
    ∃ y m, o = .next { t with scratch := y, latched := m } ∧ (t.regs.phase = .busy → m = t.latched) := by
  cases o with
  | next t' =>
    obtain ⟨y, m, rfl, hm⟩ := h
    exact ⟨y, m, rfl, hm⟩
  | fault | refused => exact h.elim

theorem SameAnswer.of_fault {f : Fault} {o : Outcome} (h : SameAnswer (.fault f) o) : o = .fault f := by
  cases o with
  | fault f' => exact congrArg _ (Eq.symm h)
  | next | refused => exact h.elim

theorem SameAnswer.of_refused {r : Refusal} {o : Outcome} (h : SameAnswer (.refused r) o) : o = .refused r := by
  cases o with
  | refused r' => exact congrArg _ (Eq.symm h)
  | next | fault => exact h.elim

/-- Settles O44: a completion makes what it reads anew, an acceptance overwrites every copy, and each action of each agent
answers alike. -/
theorem hiddenStateIsUnobservable : Obligations.HiddenStateIsUnobservable := by
  refine ⟨fun i s t x h => exec_scratch x h, fun s w l => rfl, fun s x l hl => ?_⟩
  have h : SameAnswer (step s) (step { s with scratch := x, latched := l }) :=
    SameVisible.step ⟨x, l, rfl, hl⟩
  exact ⟨fun t ht => (ht ▸ h).of_next, fun f hf => (hf ▸ h).of_fault, fun r hr => (hr ▸ h).of_refused⟩

end Sys2Proof.Machine
end

section
/-! PROOFS. Data memory and who touches it: what a completion writes (R61, R76), what a host's data access answers (R55, R68,
R70), which actions fault (R62, R195), and which register accesses are refused (R58, R220). -/
namespace Sys2Proof.Machine

/-! ## The engine writes its output and nothing else (R61, R76) -/

/-- An address that reads differently after bytes are written lies in the written range. -/
theorem Memory.range_of_read_writeBytes_ne {m : Memory} {a b : Nat} {bytes : List Byte}
    (h : (m.writeBytes a bytes).read b ≠ m.read b) : a ≤ b ∧ b < a + bytes.length := by
  by_contra hout
  exact h (Memory.read_writeBytes_other m a bytes (by omega))

/-- R103: the commands with a destination window. -/
theorem usesDst_cases {i : Instr} (h : usesDst i = true) : i = .hufDec ∨ i = .rleDec ∨ ∃ ent, i = .noiseInj ent := by
  cases i with
  | hufDec => exact .inl rfl
  | rleDec => exact .inr (.inl rfl)
  | noiseInj ent => exact .inr (.inr ⟨ent, rfl⟩)
  | nop | hamCfg | hamSyn => cases h

/-- R38, R61: the output is no longer than a 32-bit capacity, so OUT_LEN is its length exactly. -/
theorem runOf_outLen_toNat {i : Instr} {s : State} (hc : startChecks i s = none) (hd : usesDst i = true) :
    (runOf i s).regs.outLen.toNat = (outputOf i s).length := by
  rw [runOf_outLen s hd, BitVec.toNat_ofNat]
  exact Nat.mod_eq_of_lt (Nat.lt_of_le_of_lt (outputOf_length_le hc) s.latched.dstCap.isLt)

/-- R109: a completion that changes memory has passed its start checks, and the byte that changed is one of the output. -/
theorem exec_read_ne {i : Instr} {s t : State} {a : Nat} (h : exec i s = .next t) (hne : t.mem.read a ≠ s.mem.read a) :
    startChecks i s = none ∧ t = runOf i s ∧
      s.latched.dst.base ≤ a ∧ a < s.latched.dst.base + (outputOf i s).length := by
  rcases exec_cases h with ⟨hc, ht⟩ | ⟨e, -, ht⟩ <;> cases ht
  · rw [runOf_mem] at hne
    exact ⟨hc, rfl, Memory.range_of_read_writeBytes_ne hne⟩
  · exact absurd rfl hne

/-- Settles O41: only a completion that runs changes memory, by an output that OUT_LEN counts and the capacity bounds. -/
theorem engineWritesOnlyItsOutput : Obligations.EngineWritesOnlyItsOutput := by
  intro s t a hturn hne
  rcases engineTurn_cases hturn with ⟨-, ht⟩ | ⟨-, -, ht⟩ | ⟨hb, i, hd, he⟩
  · cases ht; exact absurd rfl hne
  · cases ht; exact absurd rfl hne
  · obtain ⟨hc, rfl, hlo, hhi⟩ := exec_read_ne he hne
    have huses : usesDst i = true := by
      by_contra hno
      rw [outputOf_eq_nil s (by simpa using hno), List.length_nil] at hhi
      omega
    have hcap := outputOf_length_le hc
    refine ⟨hb, ?_, hlo, ?_, ?_⟩
    · simpa [hd] using usesDst_cases huses
    · rw [runOf_outLen_toNat hc huses]
      exact hhi
    · exact Nat.lt_of_lt_of_le hhi (Nat.add_le_add_left hcap _)

/-! ## A host's data access (R55, R68, R70) -/

section
variable {s : State} {a : Nat}

theorem State.readRaces_eq_false_iff : s.readRaces a = false ↔ ∀ g ∈ s.guards, g.dst.contains a = false := by
  simp [State.readRaces]

theorem State.writeRaces_eq_false_iff :
    s.writeRaces a = false ↔ ∀ g ∈ s.guards, g.src.contains a = false ∧ g.dst.contains a = false := by
  simp [State.writeRaces]

theorem State.readRaces_of_mem {g : Guard} (hg : g ∈ s.guards) (ha : g.dst.contains a = true) : s.readRaces a = true :=
  List.any_eq_true.2 ⟨g, hg, ha⟩

theorem State.writeRaces_of_mem {g : Guard} (hg : g ∈ s.guards) (ha : g.src.contains a = true ∨ g.dst.contains a = true) :
    s.writeRaces a = true :=
  List.any_eq_true.2 ⟨g, hg, by simpa using ha⟩

theorem hostMemRead_of_not_races (ha : a < s.platform.bytes) (h : s.readRaces a = false) :
    hostMemRead s a = .next { s with hostData := (s.mem.read a).setWidth 32 } := by
  simp [hostMemRead, Nat.not_le.2 ha, h]

theorem hostMemRead_of_races (ha : a < s.platform.bytes) (h : s.readRaces a = true) :
    hostMemRead s a = .fault .hostWindowRace := by
  simp [hostMemRead, Nat.not_le.2 ha, h]

theorem hostMemWrite_of_not_races (v : Byte) (ha : a < s.platform.bytes) (h : s.writeRaces a = false) :
    hostMemWrite s a v = .next { s with mem := s.mem.write a v } := by
  simp [hostMemWrite, Nat.not_le.2 ha, h]

theorem hostMemWrite_of_races (v : Byte) (ha : a < s.platform.bytes) (h : s.writeRaces a = true) :
    hostMemWrite s a v = .fault .hostWindowRace := by
  simp [hostMemWrite, Nat.not_le.2 ha, h]

end

/-- Settles O49: outside the guarded windows an access does not race, and the memory rules say what it reads and stores. -/
theorem hostDataAccessesOutsideTheWindows : Obligations.HostDataAccessesOutsideTheWindows := by
  intro s a v hwf ha
  refine ⟨fun hout => ?write, fun hout => ?read⟩
  case write =>
    exact ⟨s.mem.write a v, hostMemWrite_of_not_races v ha (State.writeRaces_eq_false_iff.2 hout),
      Memory.read_write_same a v hwf, fun b hb => Memory.read_write_other v hb⟩
  case read =>
    exact ⟨_, hostMemRead_of_not_races ha (State.readRaces_eq_false_iff.2 hout), BitVec.toNat_setWidth_of_le (by decide)⟩

/-! ## The duties while a command is in progress (R62, R70) -/

/-- R70, R103: the guard of a command covers each window it uses. -/
theorem Latched.guard_covers {i : Instr} {l : Latched} {w : AddrRange} (h : w ∈ usedWindows i l) :
    w = (l.guard i).src ∨ w = (l.guard i).dst := by
  cases i with
  | nop | hamCfg => cases h
  | hamSyn => exact .inl (List.mem_singleton.1 h)
  | hufDec | rleDec | noiseInj => simpa [usedWindows, Latched.guard, usesSrc, usesDst] using h

theorem Latched.guard_dst {i : Instr} (l : Latched) (h : usesDst i = true) : (l.guard i).dst = l.dst := by
  simp [Latched.guard, h]

/-- R62: with a command in progress every new list of ranges faults. -/
theorem platformSetAdmit_busy {s : State} {refused : List AddrRange} (hb : s.regs.phase = .busy)
    (h : refused ≠ s.platform.refused) : platformSetAdmit s refused = .fault .platformAdmitChanged := by
  simp [platformSetAdmit, hb, h]

/-- Settles O45: the guard of the command in progress stands in the list and covers its windows. -/
theorem dutiesWhileBusy : Obligations.DutiesWhileBusy := by
  intro s i a v hb hd hguards ha
  have hmem : s.latched.guard i ∈ s.guards := hguards hb i hd
  refine ⟨?write, ?readDst, ?readElsewhere, fun refused hne => platformSetAdmit_busy hb hne⟩
  case write =>
    rintro ⟨w, hw, hwa⟩
    refine hostMemWrite_of_races v ha (State.writeRaces_of_mem hmem ?_)
    rcases Latched.guard_covers hw with rfl | rfl
    · exact .inl hwa
    · exact .inr hwa
  case readDst =>
    intro huses hda
    exact hostMemRead_of_races ha (State.readRaces_of_mem hmem (by rwa [Latched.guard_dst _ huses]))
  case readElsewhere =>
    intro hout
    exact hostMemRead_of_not_races ha (State.readRaces_eq_false_iff.2 hout)

/-! ## Which actions fault (R55, R62, R70, R195) -/

/-- R195: the engine's turn never faults. -/
theorem engineTurn_ne_fault (s : State) (f : Fault) : engineTurn s ≠ .fault f := by
  intro h
  rcases engineTurn_cases h with ⟨-, ht⟩ | ⟨-, -, ht⟩ | ⟨-, i, -, he⟩
  · cases ht
  · cases ht
  · rcases exec_cases he with ⟨-, ht⟩ | ⟨e, -, ht⟩ <;> cases ht

theorem hostRegRead_ne_fault (s : State) (addr bytes : Nat) (f : Fault) : hostRegRead s addr bytes ≠ .fault f := by
  unfold hostRegRead
  split <;> nofun

theorem hostRegWrite_ne_fault (s : State) (addr bytes : Nat) (v : Word) (f : Fault) :
    hostRegWrite s addr bytes v ≠ .fault f := by
  unfold hostRegWrite
  split <;> nofun

theorem hostMemRead_fault_iff (s : State) (a : Nat) :
    (∃ f, hostMemRead s a = .fault f) ↔ s.dutiful (.memRead a) = false := by
  by_cases ha : a < s.platform.bytes
  · cases hr : s.readRaces a with
    | false => simp [State.dutiful, hostMemRead_of_not_races ha hr, ha, hr]
    | true => simp [State.dutiful, hostMemRead_of_races ha hr, hr]
  · simp [State.dutiful, hostMemRead, Nat.not_lt.1 ha, ha]

theorem hostMemWrite_fault_iff (s : State) (a : Nat) (v : Byte) :
    (∃ f, hostMemWrite s a v = .fault f) ↔ s.dutiful (.memWrite a v) = false := by
  by_cases ha : a < s.platform.bytes
  · cases hr : s.writeRaces a with
    | false => simp [State.dutiful, hostMemWrite_of_not_races v ha hr, ha, hr]
    | true => simp [State.dutiful, hostMemWrite_of_races v ha hr, hr]
  · simp [State.dutiful, hostMemWrite, Nat.not_lt.1 ha, ha]

theorem platformSetAdmit_fault_iff (s : State) (refused : List AddrRange) :
    (∃ f, platformSetAdmit s refused = .fault f) ↔ s.dutiful (.setAdmit refused) = false := by
  cases hp : s.regs.phase with
  | idle => simp [State.dutiful, platformSetAdmit, hp]
  | busy =>
    by_cases hr : refused = s.platform.refused
    · simp [State.dutiful, platformSetAdmit, hp, hr]
    · simp [State.dutiful, platformSetAdmit_busy hp hr, hp, hr]

/-- An action faults exactly when it breaks a duty: three kinds of action can, the others never do. -/
theorem applyInput_fault_iff (e : Input) (s : State) : (∃ f, applyInput e s = .fault f) ↔ s.dutiful e = false := by
  cases e with
  | memRead a => exact hostMemRead_fault_iff s a
  | memWrite a v => exact hostMemWrite_fault_iff s a v
  | setAdmit refused => exact platformSetAdmit_fault_iff s refused
  | engine => simp [applyInput, State.dutiful, engineTurn_ne_fault]
  | regRead addr bytes => simp [applyInput, State.dutiful, hostRegRead_ne_fault]
  | regWrite addr bytes v => simp [applyInput, State.dutiful, hostRegWrite_ne_fault]
  | sampleIrq => simp [applyInput, State.dutiful, hostSampleIrq]
  | assertReset => simp [applyInput, State.dutiful, platformAssertReset]
  | releaseReset => simp [applyInput, State.dutiful, platformReleaseReset]
  | ungate kept => simp [applyInput, State.dutiful, platformUngate]

/-- Settles O46: with no action to come the engine's turn never faults; else the step is the action's. -/
theorem onlyBrokenDutiesFault : Obligations.OnlyBrokenDutiesFault := by
  intro s
  cases hi : s.inputs with
  | nil => simp [step_nil hi, engineTurn_ne_fault]
  | cons e rest =>
    rw [step_cons hi, applyInput_fault_iff]
    constructor
    · intro h
      exact ⟨e, rest, rfl, h⟩
    · rintro ⟨e', rest', heq, h⟩
      cases heq
      exact h

/-! ## Register accesses that are refused (R58, R220) -/

/-- R58, R220: an access inside the window is refused for reset, then for its shape, or reaches its offset. -/
theorem State.regOffset_inWindow (s : State) {o : Nat} (bytes : Nat) (ho : o < 0x1000) :
    s.regOffset (s.platform.regBase + o) bytes =
      if s.resetAsserted then .error .accessInReset
      else if bytes ≠ 4 ∨ o % 4 ≠ 0 then .error .accessShape
      else .ok o := by
  unfold State.regOffset
  rw [if_neg (by simp only [Config.windowBytes]; omega), Nat.add_sub_cancel_left]

/-- A read and a write that reach no offset are refused for the same reason. -/
theorem regAccess_refused {s : State} {addr bytes : Nat} {r : Refusal} (v : Word) (h : s.regOffset addr bytes = .error r) :
    applyInput (.regRead addr bytes) s = .refused r ∧ applyInput (.regWrite addr bytes v) s = .refused r := by
  simp [applyInput, hostRegRead, hostRegWrite, h]

/-- Settles O35: reset is looked at before the access's shape. -/
theorem otherRegisterAccessesAreRefused : Obligations.OtherRegisterAccessesAreRefused := by
  intro s o bytes v ho
  have hoffset := s.regOffset_inWindow bytes ho
  refine ⟨fun hrst => regAccess_refused v ?_, fun hrst hshape => regAccess_refused v ?_⟩
  · rw [hoffset, if_pos hrst]
  · rw [hoffset, if_neg (by simp [hrst]), if_pos hshape]

end Sys2Proof.Machine
end

section
/-! PROOFS. The command word (R77 to R85): a word's three fields decide which row of R81 matches it, at most one row does, and the
decoder and the encoder are each other's inverse. -/
namespace Sys2Proof

/-! ## The fields of a word (R77) -/

theorem getLsbD_fieldOp (w : Word) (j : Nat) : (fieldOp w).getLsbD j = (decide (j < 8) && w.getLsbD j) := by
  simp [fieldOp, BitVec.getLsbD_extractLsb']

theorem getLsbD_fieldFlags (w : Word) (j : Nat) : (fieldFlags w).getLsbD j = (decide (j < 8) && w.getLsbD (8 + j)) := by
  simp [fieldFlags, BitVec.getLsbD_extractLsb']

theorem getLsbD_fieldImm (w : Word) (j : Nat) : (fieldImm w).getLsbD j = (decide (j < 16) && w.getLsbD (16 + j)) := by
  simp [fieldImm, BitVec.getLsbD_extractLsb']

@[simp] theorem fieldOp_and (w m : Word) : fieldOp (w &&& m) = fieldOp w &&& fieldOp m := BitVec.extractLsb'_and

@[simp] theorem fieldFlags_and (w m : Word) : fieldFlags (w &&& m) = fieldFlags w &&& fieldFlags m := BitVec.extractLsb'_and

@[simp] theorem fieldImm_and (w m : Word) : fieldImm (w &&& m) = fieldImm w &&& fieldImm m := BitVec.extractLsb'_and

/-- R77: the three fields are the whole word. -/
theorem word_eq_iff_fields (w v : Word) :
    w = v ↔ fieldOp w = fieldOp v ∧ fieldFlags w = fieldFlags v ∧ fieldImm w = fieldImm v := by
  refine ⟨by rintro rfl; exact ⟨rfl, rfl, rfl⟩, fun ⟨hop, hflags, himm⟩ => BitVec.eq_of_getLsbD_eq fun j hj => ?_⟩
  by_cases h8 : j < 8
  · have hbit := congrArg (fun b => b.getLsbD j) hop
    simpa only [getLsbD_fieldOp, h8, decide_true, Bool.true_and] using hbit
  · by_cases h16 : j < 16
    · have hbit := congrArg (fun b => b.getLsbD (j - 8)) hflags
      simpa only [getLsbD_fieldFlags, show j - 8 < 8 by omega, show 8 + (j - 8) = j by omega, decide_true, Bool.true_and]
        using hbit
    · have hbit := congrArg (fun b => b.getLsbD (j - 16)) himm
      simpa only [getLsbD_fieldImm, show j - 16 < 16 by omega, show 16 + (j - 16) = j by omega, decide_true, Bool.true_and]
        using hbit

/-! ## Which row matches a word (R81, R82) -/

/-- R79: the FLAGS bits that the operation `op` reserves. -/
def reservedFlags (op : BitVec 8) : BitVec 8 := if op = 0x05#8 then 0xFE#8 else 0xFF#8

/-- R80: the IMM16 bits that the operation `op` reserves. -/
def reservedImm (op : BitVec 8) : BitVec 16 := if op = 0x03#8 then 0#16 else 0xFFFF#16

/-- R81: each row of the table gives its OP whole, and the reserved bits of its operation as 0. -/
theorem opcodeTable_fields : ∀ r ∈ opcodeTable,
    (fieldOp r.mask = BitVec.allOnes 8 ∧ fieldFlags r.mask = reservedFlags (fieldOp r.value) ∧
      fieldImm r.mask = reservedImm (fieldOp r.value)) ∧ fieldFlags r.value = 0#8 ∧ fieldImm r.value = 0#16 := by
  decide

/-- R81: a row matches a word exactly when OP is the row's and the bits that this OP reserves are 0. -/
theorem and_mask_eq_value_iff {r : OpcodeRow} (hr : r ∈ opcodeTable) (w : Word) :
    w &&& r.mask = r.value ↔
      fieldOp w = fieldOp r.value ∧ fieldFlags w &&& reservedFlags (fieldOp w) = 0#8 ∧
        fieldImm w &&& reservedImm (fieldOp w) = 0#16 := by
  obtain ⟨⟨hop, hflags, himm⟩, hflags0, himm0⟩ := opcodeTable_fields r hr
  rw [word_eq_iff_fields, fieldOp_and, fieldFlags_and, fieldImm_and, hop, hflags, himm, hflags0, himm0, BitVec.and_allOnes]
  exact and_congr_right fun h => by rw [h]

/-- R81: no two rows have one OP. -/
theorem opcodeTable_op_injective : ∀ r ∈ opcodeTable, ∀ q ∈ opcodeTable, fieldOp r.value = fieldOp q.value → r = q := by
  decide

/-- R81: at most one row matches a word. -/
theorem opcodeRow_unique {r q : OpcodeRow} {w : Word} (hr : r ∈ opcodeTable) (hq : q ∈ opcodeTable)
    (hrw : w &&& r.mask = r.value) (hqw : w &&& q.mask = q.value) : r = q :=
  opcodeTable_op_injective r hr q hq
    (((and_mask_eq_value_iff hr w).1 hrw).1.symm.trans ((and_mask_eq_value_iff hq w).1 hqw).1)

theorem OpcodeRow.selects_iff (r : OpcodeRow) (w : Word) : r.selects w = true ↔ w &&& r.mask = r.value := by
  simp [OpcodeRow.selects]

/-! ## The decoder (R81) -/

/-- R81: a word decodes to what the row that matches it gives. -/
theorem decode_eq_ok_iff (w : Word) (i : Instr) :
    decode w = .ok i ↔ ∃ r ∈ opcodeTable, w &&& r.mask = r.value ∧ r.op.instr w = i := by
  cases hf : opcodeTable.find? (fun r => r.selects w) with
  | none =>
    simp only [decode, hf, reduceCtorEq, false_iff]
    rintro ⟨r, hr, hw, -⟩
    exact List.find?_eq_none.1 hf r hr ((r.selects_iff w).2 hw)
  | some r =>
    have hr := List.mem_of_find?_eq_some hf
    have hw := (r.selects_iff w).1 (List.find?_some (p := fun q : OpcodeRow => q.selects w) hf)
    simp only [decode, hf, Except.ok.injEq]
    constructor
    · rintro rfl
      exact ⟨r, hr, hw, rfl⟩
    · rintro ⟨q, hq, hqw, rfl⟩
      rw [opcodeRow_unique hr hq hw hqw]

/-- R82: the decoder refuses the words that match no row, and no others. -/
theorem decode_eq_error_iff (w : Word) : (∃ e, decode w = .error e) ↔ ∀ r ∈ opcodeTable, w &&& r.mask ≠ r.value := by
  cases hd : decode w with
  | ok i =>
    obtain ⟨r, hr, hw, -⟩ := (decode_eq_ok_iff w i).1 hd
    simp only [reduceCtorEq, exists_false, false_iff]
    exact fun h => h r hr hw
  | error e =>
    refine ⟨fun _ r hr hw => ?_, fun _ => ⟨e, rfl⟩⟩
    have hok := (decode_eq_ok_iff w _).2 ⟨r, hr, hw, rfl⟩
    rw [hd] at hok
    cases hok

/-! ## The round trips (R81, R84, R85) -/

/-- The word of every command matches its row and holds its operands. -/
theorem encodedWord (i : Instr) : Laws.EncodedWord.Statement i := by
  cases i with
  | nop => exact Laws.EncodedWord.nop
  | hufDec => exact Laws.EncodedWord.hufDec
  | rleDec => exact Laws.EncodedWord.rleDec
  | hamCfg k => exact Laws.EncodedWord.hamCfg k
  | hamSyn => exact Laws.EncodedWord.hamSyn
  | noiseInj ent => exact Laws.EncodedWord.noiseInj ent

/-- Settles O2: the command's own row matches its word, and no other row does. -/
theorem decodeOfEncode : Obligations.DecodeOfEncode := by
  intro i hwf
  obtain ⟨r, hr, hsel, hinstr⟩ := encodedWord i hwf
  exact (decode_eq_ok_iff _ _).2 ⟨r, hr, (r.selects_iff _).1 hsel, hinstr⟩

/-- A word is its bits under a mask and its other bits. -/
theorem and_or_and_not (w m : Word) : w &&& m ||| w &&& ~~~m = w := by
  rw [← BitVec.and_or_distrib_left, BitVec.or_not_self, BitVec.and_allOnes]

/-- R80: the bits outside the mask of HAM.CFG are its operand's, in place. -/
theorem fieldImm_shiftLeft (w : Word) : BitVec.ofNat 32 (fieldImm w).toNat <<< 16 = w &&& ~~~0x0000FFFF#32 := by
  have hmask : ~~~0x0000FFFF#32 = BitVec.allOnes 32 <<< 16 := by decide
  refine BitVec.eq_of_getLsbD_eq fun j hj => ?_
  rw [hmask, BitVec.ofNat_toNat, BitVec.getLsbD_and, BitVec.getLsbD_shiftLeft, BitVec.getLsbD_shiftLeft, BitVec.getLsbD_setWidth,
    BitVec.getLsbD_allOnes, getLsbD_fieldImm]
  by_cases h16 : j < 16
  · simp [h16]
  · simp [h16, hj, show j - 16 < 16 by omega, show j - 16 < 32 by omega, show 16 + (j - 16) = j by omega]

/-- R79: the one bit outside the mask of NOISE.INJ is ENT. -/
theorem and_not_noiseMask (w : Word) : w &&& ~~~0xFFFFFEFF#32 = if fieldEnt w then 0x00000100#32 else 0#32 := by
  have hmask : ~~~0xFFFFFEFF#32 = BitVec.twoPow 32 8 := by decide
  rw [hmask, BitVec.and_twoPow]
  rfl

/-- R81, R84: each row's operation, with the operands of a word that the row matches, is well formed and has that word. -/
theorem encode_instr {r : OpcodeRow} {w : Word} (hr : r ∈ opcodeTable) (hw : w &&& r.mask = r.value) :
    (r.op.instr w).wellFormed = true ∧ encode (r.op.instr w) = w := by
  have hsplit := and_or_and_not w r.mask
  rw [hw] at hsplit
  have hwhole : r.mask = BitVec.allOnes 32 → r.value = w := by
    intro hmask
    rwa [hmask, BitVec.and_allOnes, eq_comm] at hw
  simp only [opcodeTable, List.mem_cons, List.not_mem_nil, or_false] at hr
  obtain rfl | rfl | rfl | rfl | rfl | rfl := hr
  · exact ⟨rfl, hwhole rfl⟩
  · exact ⟨rfl, hwhole rfl⟩
  · exact ⟨rfl, hwhole rfl⟩
  · refine ⟨decide_eq_true (Nat.le_of_lt_succ (fieldImm w).isLt), ?_⟩
    rwa [BitVec.or_comm, ← fieldImm_shiftLeft] at hsplit
  · exact ⟨rfl, hwhole rfl⟩
  · refine ⟨rfl, ?_⟩
    rw [and_not_noiseMask] at hsplit
    rw [← hsplit]
    simp only [Op.instr, encode]
    cases fieldEnt w <;> rfl

/-- Settles O3: the row that matches the word gives its operation, and the word's operand bits give the rest back. -/
theorem encodeOfDecode : Obligations.EncodeOfDecode := by
  intro w i hd
  obtain ⟨r, hr, hw, rfl⟩ := (decode_eq_ok_iff w i).1 hd
  exact encode_instr hr hw

/-! ## The illegal words (R82) -/

/-- R78: the OPs of the rows are those below 0x06. -/
theorem exists_row_op_iff (op : BitVec 8) : (∃ r ∈ opcodeTable, op = fieldOp r.value) ↔ op < 0x06#8 := by
  revert op; decide

/-- R82: a word matches no row exactly when its OP is reserved, or a bit is 1 that its OP reserves. -/
theorem no_row_iff (w : Word) : (∀ r ∈ opcodeTable, w &&& r.mask ≠ r.value) ↔
    0x06#8 ≤ fieldOp w ∨ fieldFlags w &&& reservedFlags (fieldOp w) ≠ 0#8 ∨ fieldImm w &&& reservedImm (fieldOp w) ≠ 0#16 := by
  have hrow : (∃ r ∈ opcodeTable, w &&& r.mask = r.value) ↔ fieldOp w < 0x06#8 ∧
      fieldFlags w &&& reservedFlags (fieldOp w) = 0#8 ∧ fieldImm w &&& reservedImm (fieldOp w) = 0#16 := by
    rw [← exists_row_op_iff]
    constructor
    · rintro ⟨r, hr, hw⟩
      obtain ⟨hop, hrest⟩ := (and_mask_eq_value_iff hr w).1 hw
      exact ⟨⟨r, hr, hop⟩, hrest⟩
    · rintro ⟨⟨r, hr, hop⟩, hrest⟩
      exact ⟨r, hr, (and_mask_eq_value_iff hr w).2 ⟨hop, hrest⟩⟩
  have hno := not_congr hrow
  rw [not_and_or, not_and_or, BitVec.not_lt] at hno
  simpa only [not_exists, not_and] using hno

/-- Two vectors have a common bit exactly when their AND is not 0. -/
theorem and_ne_zero_iff {n : Nat} (x m : BitVec n) :
    x &&& m ≠ 0#n ↔ ∃ j < n, x.getLsbD j = true ∧ m.getLsbD j = true := by
  constructor
  · intro hne
    by_contra hno
    refine hne (BitVec.eq_of_getLsbD_eq fun j hj => ?_)
    simpa using fun hx => Bool.eq_false_iff.2 fun hm => hno ⟨j, hj, hx, hm⟩
  · rintro ⟨j, -, hx, hm⟩ heq
    have hbit := congrArg (fun b => b.getLsbD j) heq
    simp [hx, hm] at hbit

/-- R79: every FLAGS bit is reserved but the ENT bit of NOISE.INJ. -/
theorem getLsbD_reservedFlags (op : BitVec 8) {j : Nat} (h : j < 8) :
    (reservedFlags op).getLsbD j = true ↔ ¬ (j = 0 ∧ op = 0x05#8) := by
  have hnoise : ∀ j < 8, (0xFE#8).getLsbD j = decide (j ≠ 0) := by decide
  have hothers : ∀ j < 8, (0xFF#8).getLsbD j = true := by decide
  by_cases hop : op = 0x05#8
  · simp [reservedFlags, hop, hnoise j h]
  · simp [reservedFlags, hop, hothers j h]

theorem reservedFlags_ne_zero_iff (w : Word) : fieldFlags w &&& reservedFlags (fieldOp w) ≠ 0#8 ↔
    ∃ j, 8 ≤ j ∧ j < 16 ∧ w.getLsbD j = true ∧ ¬ (j = 8 ∧ fieldOp w = 0x05#8) := by
  rw [and_ne_zero_iff]
  constructor
  · rintro ⟨j, hj, hbit, hres⟩
    rw [getLsbD_fieldFlags, decide_eq_true hj, Bool.true_and] at hbit
    exact ⟨8 + j, by omega, by omega, hbit, fun ⟨h8, hop⟩ => (getLsbD_reservedFlags _ hj).1 hres ⟨by omega, hop⟩⟩
  · rintro ⟨j, hlo, hhi, hbit, hres⟩
    have hj : j - 8 < 8 := by omega
    refine ⟨j - 8, hj, ?_, (getLsbD_reservedFlags _ hj).2 fun ⟨h0, hop⟩ => hres ⟨by omega, hop⟩⟩
    rw [getLsbD_fieldFlags, decide_eq_true hj, Bool.true_and, Nat.add_sub_cancel' hlo]
    exact hbit

/-- R80: HAM.CFG reserves no IMM16 bit, every other operation all of them. -/
theorem reservedImm_ne_zero_iff (w : Word) : fieldImm w &&& reservedImm (fieldOp w) ≠ 0#16 ↔
    fieldImm w ≠ 0#16 ∧ fieldOp w ≠ 0x03#8 := by
  have hall : 0xFFFF#16 = BitVec.allOnes 16 := rfl
  by_cases hop : fieldOp w = 0x03#8
  · simp [reservedImm, hop]
  · simp only [reservedImm, hop, if_false, hall, BitVec.and_allOnes, ne_eq, not_false_eq_true, and_true]

/-- Settles O4: field by field, and by the rows' distinct OPs. -/
theorem illegalWordsAreTheReservedOnes : Obligations.IllegalWordsAreTheReservedOnes := by
  intro w
  refine ⟨?_, fun r hr q hq => opcodeRow_unique hr hq⟩
  rw [no_row_iff, reservedFlags_ne_zero_iff, reservedImm_ne_zero_iff]
  rfl

/-- Settles O1: each word is decoded by the table. -/
theorem specWordsDecode : Obligations.SpecWordsDecode := by
  unfold Obligations.SpecWordsDecode
  decide

end Sys2Proof
end

section
/-! PROOFS. The assembler's HAM.CFG (R85). -/
namespace Sys2Proof.Machine

/-- R85: a HAM.CFG line with one operand is that number's command, or is refused when the number does not fit IMM16. -/
theorem assemble_hamCfg {mnemonic operand : List Char} {n : Nat} (hm : upperCase mnemonic = ['H', 'A', 'M', '.', 'C', 'F', 'G'])
    (hn : numeral operand = some n) : assemble mnemonic [operand] = if immFits n then some (.hamCfg n) else none := by
  simp [assemble, hm, hn]

/-- R85: (k << 16) OR 3, as a sum: the two parts share no bit. -/
theorem encode_hamCfg (k : Nat) : encode (.hamCfg k) = BitVec.ofNat 32 (k * 65536 + 3) := by
  have hshift : BitVec.ofNat 32 k <<< 16 = BitVec.ofNat 32 (k <<< 16) := by
    apply BitVec.eq_of_toNat_eq
    simp only [BitVec.toNat_shiftLeft, BitVec.toNat_ofNat, Nat.shiftLeft_eq]
    omega
  have hlow : 3 < 2 ^ 16 := by decide
  change BitVec.ofNat 32 k <<< 16 ||| BitVec.ofNat 32 3 = BitVec.ofNat 32 (k * 2 ^ 16 + 3)
  rw [hshift, ← BitVec.ofNat_or, ← Nat.shiftLeft_add_eq_or_of_lt hlow, Nat.shiftLeft_eq]

/-- Settles O5: the assembler checks the bound, and the word is a sum. -/
theorem assemblerEncodesHamCfg : Obligations.AssemblerEncodesHamCfg := by
  intro operand n hn
  have hline := assemble_hamCfg (mnemonic := ['h', 'a', 'm', '.', 'C', 'F', 'G']) (by decide) hn
  refine ⟨fun hle => ?_, fun hgt => ?_⟩
  · simp [assembleWord, hline, immFits, hle, encode_hamCfg]
  · simp [assembleWord, hline, immFits, Nat.not_le.2 hgt]

end Sys2Proof.Machine
end

section
/-! PROOFS. The start checks (R105 to R109): each fails exactly when the spec says so over addresses, and the first that fails
decides. -/
namespace Sys2Proof.Machine

/-! ## What each check computes -/

/-- R103: the windows a command uses, by the two columns of the table. -/
theorem mem_usedWindows_iff (i : Instr) (l : Latched) (w : AddrRange) :
    w ∈ usedWindows i l ↔ (usesSrc i = true ∧ w = l.src) ∨ (usesDst i = true ∧ w = l.dst) := by
  cases i <;> simp [usedWindows, usesSrc, usesDst]

/-- What holds of one of the windows that a command uses. -/
theorem exists_usedWindow_iff (i : Instr) (l : Latched) (P : AddrRange → Prop) :
    (∃ w ∈ usedWindows i l, P w) ↔ (usesSrc i = true ∧ P l.src) ∨ (usesDst i = true ∧ P l.dst) := by
  simp only [mem_usedWindows_iff, or_and_right, exists_or, and_assoc, exists_and_left, exists_eq_left]

/-- A check with one error passes exactly when it does not fail with that error. -/
theorem failsWith_eq_none_iff_ne (b : Bool) (e : ErrCode) : failsWith b e = none ↔ failsWith b e ≠ some e := by
  cases b <;> simp [failsWith]

/-- The code that a check with one error raises. -/
theorem exists_failsWith_iff (b : Bool) (e : ErrCode) (c : BitVec 8) :
    (∃ f, failsWith b e = some f ∧ c = f.code) ↔ b = true ∧ c = e.code := by
  cases b <;> simp [failsWith]

/-- R105 step 2. -/
theorem paramFails_iff (i : Instr) (s : State) (c : BitVec 8) :
    ParamFails i s c ↔ ∃ e, paramCheck i s = some e ∧ c = e.code := by
  cases i with
  | nop | hufDec | rleDec => simp [ParamFails, paramCheck]
  | hamCfg k | hamSyn | noiseInj ent =>
    simp only [ParamFails, paramCheck, exists_failsWith_iff]
    simp [Config.hamKMax, Config.levelMax, ErrCode.code]

theorem outOfRange_iff (p : Platform) (w : AddrRange) :
    outOfRange p w = true ↔ 0x0FFFFFFF < w.len ∨ 2 ^ p.aw < w.base + w.len := by
  simp [outOfRange, Config.lenMax, Platform.bytes]

/-- R106. -/
theorem rangeFails_iff (i : Instr) (s : State) : RangeFails i s ↔ rangeCheck i s = some .range := by
  simp [RangeFails, rangeCheck, exists_usedWindow_iff, outOfRange_iff]

/-- R107, R186: a command is in place when it may be and its windows start at one address. -/
theorem Latched.inPlace_iff (l : Latched) (i : Instr) :
    l.inPlace i = true ↔ mayRunInPlace i = true ∧ l.dstAddr = l.srcAddr := by
  simp [Latched.inPlace, Latched.src, Latched.dst, BitVec.toNat_inj]

/-- R107. -/
theorem overlapFails_iff (i : Instr) (s : State) : OverlapFails i s ↔ overlapCheck i s = some .overlap := by
  simp only [overlapCheck, failsWith_eq_some, and_true, Bool.and_eq_true, Bool.not_eq_true', Bool.eq_false_iff, ne_eq,
    AddrRange.meets_iff, Latched.inPlace_iff]
  cases i <;> simp [OverlapFails, usesSrc, usesDst, mayRunInPlace]

theorem admitsAll_eq_false_iff (p : Platform) (w : AddrRange) :
    p.admitsAll w = false ↔ ∃ a, w.contains a = true ∧ p.admits a = false := by
  rw [← Bool.not_eq_true, p.admitsAll_iff]
  simp only [AddrRange.contains_iff]
  constructor
  · intro h
    push Not at h
    obtain ⟨i, hi, hno⟩ := h
    exact ⟨w.base + i, by omega, by simpa using hno⟩
  · rintro ⟨a, ⟨hlo, hhi⟩, hno⟩ hall
    have := hall (a - w.base) (by omega)
    rw [Nat.add_sub_cancel' hlo, hno] at this
    cases this

/-- R108. -/
theorem admitFails_iff (i : Instr) (s : State) : AdmitFails i s ↔ admitCheck i s = some .busError := by
  simp [AdmitFails, admitCheck, exists_usedWindow_iff, admitsAll_eq_false_iff]

/-- R105 step 6. -/
theorem lengthFails_iff (i : Instr) (s : State) (c : BitVec 8) :
    LengthFails i s c ↔ ∃ e, lengthCheck i s = some e ∧ c = e.code := by
  cases i with
  | nop | hufDec | rleDec | hamCfg => simp [LengthFails, lengthCheck]
  | hamSyn | noiseInj ent =>
    simp only [LengthFails, lengthCheck, exists_failsWith_iff, decide_eq_true_eq]
    exact Iff.rfl

/-! ## Which checks pass -/

theorem paramCheck_eq_none_iff (i : Instr) (s : State) : paramCheck i s = none ↔ ∀ c, ¬ ParamFails i s c := by
  simp only [paramFails_iff, not_exists, not_and]
  cases paramCheck i s <;> simp

theorem rangeCheck_eq_none_iff_not_fails (i : Instr) (s : State) : rangeCheck i s = none ↔ ¬ RangeFails i s := by
  rw [rangeFails_iff]
  exact failsWith_eq_none_iff_ne _ _

theorem overlapCheck_eq_none_iff (i : Instr) (s : State) : overlapCheck i s = none ↔ ¬ OverlapFails i s := by
  rw [overlapFails_iff]
  exact failsWith_eq_none_iff_ne _ _

theorem admitCheck_eq_none_iff (i : Instr) (s : State) : admitCheck i s = none ↔ ¬ AdmitFails i s := by
  rw [admitFails_iff]
  exact failsWith_eq_none_iff_ne _ _

/-! ## The first failed check decides (R105, R109) -/

/-- R109: a command in progress that fails a start check leaves the state of that error. -/
theorem engineTurn_failed {s : State} {i : Instr} {e : ErrCode} (hb : s.regs.phase = .busy) (hd : decode s.latched.cmd = .ok i)
    (hc : startChecks i s = some e) : engineTurn s = .next (s.failed e.code) :=
  (engineTurn_ok hb hd).trans (exec_of_some hc)

/-- Settles O11: each check before the first that fails passes, so the chain of checks answers that one's error. -/
theorem firstFailedCheckDecides : Obligations.FirstFailedCheckDecides := by
  intro s hb
  refine ⟨fun hnone => ?illegal, fun i hd => ?checks⟩
  case illegal =>
    obtain ⟨r, hr⟩ := (decode_eq_error_iff _).2 hnone
    exact engineTurn_error hb hr
  case checks =>
    simp only [← paramCheck_eq_none_iff, ← rangeCheck_eq_none_iff_not_fails, ← overlapCheck_eq_none_iff,
      ← admitCheck_eq_none_iff]
    simp only [paramFails_iff, rangeFails_iff, overlapFails_iff, admitFails_iff, lengthFails_iff]
    refine ⟨?param, fun hp hr => ?range, fun hp hr ho => ?overlap, fun hp hr ho ha => ?admission, fun hp hr ho ha => ?length⟩
    case param =>
      rintro _ ⟨e, he, rfl⟩
      exact engineTurn_failed hb hd (by simp [startChecks, he])
    case range => exact engineTurn_failed (e := .range) hb hd (by simp [startChecks, hp, hr])
    case overlap => exact engineTurn_failed (e := .overlap) hb hd (by simp [startChecks, hp, hr, ho])
    case admission => exact engineTurn_failed (e := .busError) hb hd (by simp [startChecks, hp, hr, ho, ha])
    case length =>
      rintro _ ⟨e, he, rfl⟩
      exact engineTurn_failed hb hd (by simp [startChecks, hp, hr, ho, ha, he])

end Sys2Proof.Machine
end

section
/-! PROOFS. RLE.DEC of legal records (R91, R165 to R168), and what both decoders share: the start checks that pass, and the output
in memory. -/
namespace Sys2Proof.Machine

/-! ## What both decoders share -/

theorem AddrRange.Apart.meets_eq_false {r q : AddrRange} (h : r.Apart q) : r.meets q = false := by
  rw [← Bool.not_eq_true, AddrRange.meets_iff]
  rintro ⟨a, ha⟩
  exact h a ha

/-- R105 to R108: windows that fit and are apart pass the start checks of a decoder. -/
theorem startChecks_decoder_eq_none {i : Instr} {s : State} (hi : i = .hufDec ∨ i = .rleDec) (hsrc : s.SrcFits) (hdst : s.DstFits)
    (hapart : s.latched.src.Apart s.latched.dst) : startChecks i s = none := by
  have hsrcRange := hsrc.outOfRange_eq_false
  have hdstRange := hdst.outOfRange_eq_false
  refine (startChecks_eq_none _ _).2 ⟨?param, ?range, ?overlap, ?admission, ?length⟩
  case param => rcases hi with rfl | rfl <;> rfl
  case range => simp [rangeCheck, hsrcRange, hdstRange]
  case overlap => simp [overlapCheck, hapart.meets_eq_false]
  case admission => simp [admitCheck, hsrc.admitsAll_eq_true, hdst.admitsAll_eq_true]
  case length => rcases hi with rfl | rfl <;> rfl

/-- Bytes written to memory stand there, and nothing else changes. -/
theorem Memory.holds_writeBytes {m : Memory} (hwf : m.wf) (base : Nat) (out : List Byte) :
    m.Holds (m.writeBytes base out) base out := by
  refine ⟨fun i b hb => ?_, fun a ha => Memory.read_writeBytes_other m base out ha⟩
  obtain ⟨hi, -⟩ := List.getElem?_eq_some_iff.1 hb
  rw [Memory.read_writeBytes base out hwf, if_pos (by omega), Nat.add_sub_cancel_left, List.getD_eq_getElem?_getD, hb]
  rfl

/-! ## One record (R91, R166 to R168) -/

/-- R91, R167: a count of 1 to 127 is positive as a signed byte. -/
theorem toInt_ofNat_count {n : Nat} (h : n ≤ 127) : (BitVec.ofNat 8 n).toInt = n := by
  rw [BitVec.toInt_eq_toNat_cond, BitVec.toNat_ofNat]
  omega

/-- R91, R168: `count - 128` is 0 or negative as a signed byte. -/
theorem toInt_ofInt_copies {count : Nat} (h : count ≤ 128) : (BitVec.ofInt 8 ((count : Int) - 128)).toInt = count - 128 := by
  rw [BitVec.toInt_ofInt, Int.bmod_eq_of_le] <;> omega

/-- R91, R166 to R168: a legal record before any stream is read as the record that its writer meant. -/
theorem rleRecord_stream {it : RleItem} (h : it.legal = true) (tail : List Byte) :
    ∃ b bs, it.stream = b :: bs ∧ rleRecord b (bs ++ tail) = some ⟨it.expansion, it.stream.length, tail⟩ := by
  cases it with
  | literal bytes =>
    simp only [RleItem.legal, Bool.and_eq_true, decide_eq_true_eq] at h
    refine ⟨_, bytes, rfl, ?_⟩
    have hcount := toInt_ofNat_count h.2
    simp [rleRecord, hcount, RleItem.expansion, RleItem.stream, show 0 < bytes.length by omega, Nat.add_comm]
  | copies count v =>
    simp only [RleItem.legal, decide_eq_true_eq] at h
    refine ⟨_, [v], rfl, ?_⟩
    have hcount := toInt_ofInt_copies h
    simp [rleRecord, hcount, RleItem.expansion, RleItem.stream, show ¬ 128 < count by omega]

/-! ## Many records (R165) -/

/-- R165: a record that fits is written, and the loop goes on behind it. -/
theorem rleLoop_stream {it : RleItem} (h : it.legal = true) (n pos : Nat) {room : Nat} (tail : List Byte)
    (hroom : it.expansion.length ≤ room) : rleLoop (n + 1) pos room (it.stream ++ tail) =
      let q := rleLoop n (pos + it.stream.length) (room - it.expansion.length) tail
      { q with out := it.expansion ++ q.out } := by
  obtain ⟨b, bs, hstream, hrec⟩ := rleRecord_stream h tail
  rw [hstream] at hrec ⊢
  simp [rleLoop, hrec, Nat.not_lt.2 hroom]

theorem RleItem.stream_length_pos (it : RleItem) : 0 < it.stream.length := by
  cases it <;> simp [RleItem.stream]

/-- R165: records that fit are written one after the other, whatever follows them. -/
theorem rleLoop_items {items : List RleItem} (h : ∀ it ∈ items, it.legal = true) {n room : Nat} (pos : Nat) (tail : List Byte)
    (hn : (items.flatMap RleItem.stream ++ tail).length ≤ n) (hroom : (items.flatMap RleItem.expansion).length ≤ room) :
    rleLoop n pos room (items.flatMap RleItem.stream ++ tail) =
      let q := rleLoop tail.length (pos + (items.flatMap RleItem.stream).length)
        (room - (items.flatMap RleItem.expansion).length) tail
      { q with out := items.flatMap RleItem.expansion ++ q.out } := by
  induction items generalizing n room pos with
  | nil => exact rleLoop_bound hn (Nat.le_refl _)
  | cons it items ih =>
    simp only [List.forall_mem_cons] at h
    simp only [List.flatMap_cons, List.append_assoc, List.length_append] at hn hroom ⊢
    have hpos := it.stream_length_pos
    obtain ⟨n, rfl⟩ : ∃ k, n = k + 1 := ⟨n - 1, by omega⟩
    rw [rleLoop_stream h.1 n pos _ (by omega), ih h.2 _ (by simp only [List.length_append]; omega) (by omega)]
    simp [Nat.add_assoc, Nat.sub_sub]

/-- R165, R91: legal records that fit decode to their expansion. -/
theorem rleDecode_items {items : List RleItem} (h : ∀ it ∈ items, it.legal = true) {cap : Nat}
    (hroom : (items.flatMap RleItem.expansion).length ≤ cap) : rleDecode (items.flatMap RleItem.stream) cap =
      ⟨none, items.flatMap RleItem.expansion, (items.flatMap RleItem.stream).length⟩ := by
  have hloop := rleLoop_items h 0 [] (Nat.le_refl _) hroom
  simpa [rleDecode, rleLoop] using hloop

/-- Settles O17: the start checks pass, and the decoder's output is the expansion. -/
theorem rleDecExpandsRecords : Obligations.RleDecExpandsRecords := by
  intro s items hwf hsrc hdst hapart hlegal hstream hroom
  have hrun : exec .rleDec s = .next (s.finishRle (rleDecode s.srcBytes s.latched.dst.len)) :=
    exec_of_none (startChecks_decoder_eq_none (.inr rfl) hsrc hdst hapart)
  rw [hrun, hstream, rleDecode_items (cap := s.latched.dst.len) hlegal hroom]
  exact ⟨_, _, rfl, Memory.holds_writeBytes hwf _ _⟩

end Sys2Proof.Machine
end

section
/-! PROOFS. HUF.DEC of a header, a tree and codes of that tree (R88 to R90, R140): the parse leaves an arena in which the tree
stands, and the walk over the arena reads a code as the tree does. -/
namespace Sys2Proof.Machine

/-! ## The arena of a tree (R144) -/

/-- R144: node `x` becomes internal, and its two children are allocated. -/
def allocateChildren (x : Nat) (arena : List HufNode) : List HufNode :=
  arena.set x (.internal arena.length (arena.length + 1)) ++ [.unset, .unset]

@[simp] theorem length_allocateChildren (x : Nat) (arena : List HufNode) :
    (allocateChildren x arena).length = arena.length + 2 := by
  simp [allocateChildren]

theorem getElem?_allocateChildren_self {x : Nat} {arena : List HufNode} (hx : x < arena.length) :
    (allocateChildren x arena)[x]? = some (.internal arena.length (arena.length + 1)) := by
  rw [allocateChildren, List.getElem?_append_left (by simpa using hx), List.getElem?_set_self hx]

theorem getElem?_allocateChildren_ne {x y : Nat} {arena : List HufNode} (hne : y ≠ x) (hy : y < arena.length) :
    (allocateChildren x arena)[y]? = arena[y]? := by
  rw [allocateChildren, List.getElem?_append_left (by simpa using hy), List.getElem?_set_ne hne.symm]

/-- R144: the arena after the serialisation of a tree has been parsed into node `x`. -/
def HufTree.parsedInto : HufTree → Nat → List HufNode → List HufNode
  | .leaf v, x, arena => arena.set x (.leaf v)
  | .node l r, x, arena => r.parsedInto (arena.length + 1) (l.parsedInto arena.length (allocateChildren x arena))

/-- The tree's root takes the node it is parsed into, and each of its other nodes a new one. -/
theorem HufTree.length_parsedInto (t : HufTree) (x : Nat) (arena : List HufNode) :
    (t.parsedInto x arena).length + 1 = arena.length + t.nodes := by
  induction t generalizing x arena with
  | leaf v => simp [parsedInto, nodes]
  | node l r il ir =>
    have hl := il arena.length (allocateChildren x arena)
    have hr := ir (arena.length + 1) (l.parsedInto arena.length (allocateChildren x arena))
    rw [length_allocateChildren] at hl
    simp only [parsedInto, nodes]
    omega

/-- The parse of a tree leaves every other allocated node alone. -/
theorem HufTree.getElem?_parsedInto_ne (t : HufTree) {x y : Nat} {arena : List HufNode} (hne : y ≠ x) (hy : y < arena.length) :
    (t.parsedInto x arena)[y]? = arena[y]? := by
  induction t generalizing x arena with
  | leaf v => exact List.getElem?_set_ne hne.symm
  | node l r il ir =>
    have hl := l.length_parsedInto arena.length (allocateChildren x arena)
    have hpos := l.nodes_pos
    rw [length_allocateChildren] at hl
    rw [parsedInto, ir (by omega) (by omega), il (by omega) (by simp; omega), getElem?_allocateChildren_ne hne hy]

/-- The tree stands in the arena at node `x`. The root, node 0, is no node's child (R147). -/
def HufTree.StandsAt (arena : List HufNode) : HufTree → Nat → Prop
  | .leaf v, x => arena[x]? = some (.leaf v)
  | .node l r, x => ∃ a b, arena[x]? = some (.internal a b) ∧ a ≠ 0 ∧ b ≠ 0 ∧ l.StandsAt arena a ∧ r.StandsAt arena b

/-- The tree stands in every arena that agrees with what its parse left, at the node it was parsed into and at the new nodes. -/
theorem HufTree.standsAt_of_agree (t : HufTree) {x : Nat} {arena final : List HufNode} (hx : x < arena.length)
    (h : ∀ y, y = x ∨ arena.length ≤ y → y < (t.parsedInto x arena).length → final[y]? = (t.parsedInto x arena)[y]?) :
    t.StandsAt final x := by
  induction t generalizing x arena with
  | leaf v =>
    rw [StandsAt, h x (.inl rfl) (by simpa [parsedInto] using hx), parsedInto, List.getElem?_set_self hx]
  | node l r il ir =>
    rw [parsedInto] at h
    have hl := l.length_parsedInto arena.length (allocateChildren x arena)
    have hr := r.length_parsedInto (arena.length + 1) (l.parsedInto arena.length (allocateChildren x arena))
    have hlpos := l.nodes_pos
    have hrpos := r.nodes_pos
    rw [length_allocateChildren] at hl
    refine ⟨arena.length, arena.length + 1, ?root, by omega, by omega, ?left, ?right⟩
    case root =>
      rw [h x (.inl rfl) (by omega), r.getElem?_parsedInto_ne (by omega) (by omega),
        l.getElem?_parsedInto_ne (by omega) (by simp; omega), getElem?_allocateChildren_self hx]
    case left =>
      refine il (arena := allocateChildren x arena) (by simp) fun y hy hlt => ?_
      rw [length_allocateChildren] at hy
      rw [h y (.inr (by omega)) (by omega), r.getElem?_parsedInto_ne (by omega) hlt]
    case right =>
      exact ir (by omega) fun y hy hlt => h y (.inr (by omega)) hlt

/-- R144: after the parse, the tree stands at the node it was parsed into. -/
theorem HufTree.standsAt_parsedInto (t : HufTree) {x : Nat} {arena : List HufNode} (hx : x < arena.length) :
    t.StandsAt (t.parsedInto x arena) x :=
  t.standsAt_of_agree hx fun _ _ _ => rfl

/-! ## The parse (R89, R144) -/

/-- R144, R145: with room in the arena, the parse reads the serialisation of a tree, whatever follows it. -/
theorem hufParse_bits (t : HufTree) (rest : List Bool) (x : Nat) (stack : List Nat) (arena : List HufNode)
    (h : arena.length + t.nodes ≤ Config.nodeMax + 1) :
    hufParse (t.bits ++ rest) (x :: stack) arena = hufParse rest stack (t.parsedInto x arena) := by
  induction t generalizing rest x stack arena with
  | leaf v =>
    change hufParse rest stack (arena.set x (.leaf (byteOfBits (bitsOfByte v)))) = _
    rw [byteOfBits_bitsOfByte]
    rfl
  | node l r il ir =>
    simp only [HufTree.nodes] at h
    have hl := l.length_parsedInto arena.length (allocateChildren x arena)
    have hlpos := l.nodes_pos
    have hrpos := r.nodes_pos
    rw [length_allocateChildren] at hl
    have hroom : ¬ arena.length + 2 > Config.nodeMax := by omega
    simp only [HufTree.bits, List.cons_append, List.append_assoc, hufParse, hroom, if_false]
    change hufParse _ _ (allocateChildren x arena) = _
    rw [il _ _ _ _ (by rw [length_allocateChildren]; omega), ir _ _ _ _ (by omega)]
    rfl

/-! ## The walk (R90, R147 to R149) -/

/-- R147, R149: the walk once a code bit has led to the leaf of byte `v`. -/
def hufWrite (arena : List HufNode) (v : Byte) : Nat → List Bool → HufWalk
  | 0, bits => ⟨some .dstOverflow, [], bits⟩
  | room + 1, bits => { hufWalk arena 0 room bits with out := v :: (hufWalk arena 0 room bits).out }

section
variable {arena : List HufNode} {x y : Nat} {b : Bool} (room : Nat) (bits : List Bool)

theorem hufWalk_leaf {v : Byte} (hy : (arena.getD x .unset).child b = y) (hv : arena[y]? = some (.leaf v)) :
    hufWalk arena x room (b :: bits) = hufWrite arena v room bits := by
  rw [hufWalk, hy, List.getD_eq_getElem?_getD (l := arena) (i := y), hv]
  cases room <;> rfl

theorem hufWalk_internal {l r : Nat} (hy : (arena.getD x .unset).child b = y) (hv : arena[y]? = some (.internal l r)) :
    hufWalk arena x room (b :: bits) = hufWalk arena y room bits := by
  rw [hufWalk, hy, List.getD_eq_getElem?_getD (l := arena) (i := y), hv]
  rfl

end

/-- R90, R147: the bit `b` leads from an internal node to the subtree whose codes begin behind `b`. -/
theorem HufTree.StandsAt.child {arena : List HufNode} {l r : HufTree} {x : Nat} (h : (HufTree.node l r).StandsAt arena x)
    (b : Bool) : ∃ (t : HufTree) (y : Nat), (arena.getD x .unset).child b = y ∧ t.StandsAt arena y ∧
      ∀ code, (HufTree.node l r).codeOf (b :: code) = t.codeOf code := by
  obtain ⟨a, c, hx, -, -, hl, hr⟩ := h
  rw [List.getD_eq_getElem?_getD, hx]
  cases b with
  | false => exact ⟨l, a, rfl, hl, fun _ => rfl⟩
  | true => exact ⟨r, c, rfl, hr, fun _ => rfl⟩

/-- R90, R147: from an internal node, the walk reads a code of its tree and comes to the code's byte, whatever follows it. -/
theorem hufWalk_code {arena : List HufNode} {l r : HufTree} {x : Nat} (h : (HufTree.node l r).StandsAt arena x)
    {code : List Bool} {v : Byte} (hcode : (HufTree.node l r).codeOf code = some v) (room : Nat) (bits : List Bool) :
    hufWalk arena x room (code ++ bits) = hufWrite arena v room bits := by
  induction code generalizing l r x with
  | nil => cases hcode
  | cons b code ih =>
    obtain ⟨t, y, hy, hstands, hsub⟩ := h.child b
    rw [hsub] at hcode
    cases t with
    | leaf w =>
      cases code with
      | nil =>
        cases hcode
        exact hufWalk_leaf room bits hy hstands
      | cons => cases hcode
    | node l' r' =>
      have ⟨_, _, hyx, _⟩ := hstands
      rw [List.cons_append, hufWalk_internal room _ hy hyx, ih hstands hcode]

/-- R147: codes whose bytes fit are read one after the other, whatever follows them. -/
theorem hufWalk_codes {arena : List HufNode} {l r : HufTree} (h : (HufTree.node l r).StandsAt arena 0)
    {codes : List (List Bool)} {ds : List Byte} (hcodes : codes.map (HufTree.node l r).codeOf = ds.map some)
    {room : Nat} (hroom : ds.length ≤ room) (tail : List Bool) :
    hufWalk arena 0 room (codes.flatten ++ tail) =
      let w := hufWalk arena 0 (room - ds.length) tail
      { w with out := ds ++ w.out } := by
  induction codes generalizing ds room with
  | nil =>
    obtain rfl : ds = [] := by simpa using hcodes.symm
    rfl
  | cons code codes ih =>
    cases ds with
    | nil => cases hcodes
    | cons v ds =>
      simp only [List.map_cons, List.cons.injEq] at hcodes
      obtain ⟨hcode, hcodes⟩ := hcodes
      obtain ⟨room, rfl⟩ : ∃ k, room = k + 1 := ⟨room - 1, by simp only [List.length_cons] at hroom; omega⟩
      simp only [List.length_cons, Nat.add_le_add_iff_right] at hroom
      rw [List.flatten_cons, List.append_assoc, hufWalk_code h hcode, hufWrite, ih hcodes hroom]
      simp

/-! ## The decoder (R88, R140) -/

/-- R140: with a tree of at least two leaves that fits the arena, what the walk answers decides. -/
theorem hufBody_tree {l r : HufTree} (h : (HufTree.node l r).nodes ≤ Config.nodeMax) (pad : Nat) (bits : List Bool) (cap : Nat) :
    hufBody pad ((HufTree.node l r).bits ++ bits) cap =
      let arena := (HufTree.node l r).parsedInto 0 [.unset]
      let w := hufWalk arena 0 cap bits
      ⟨w.error, w.out, pad, ⟨arena, ((HufTree.node l r).bits ++ bits).length - w.rest.length, w.out.length⟩⟩ := by
  have hparse : hufParse ((HufTree.node l r).bits ++ bits) [0] [.unset] =
      ⟨none, (HufTree.node l r).parsedInto 0 [.unset], bits⟩ := by
    rw [hufParse_bits _ _ _ _ _ (by simp only [List.length_singleton]; omega), hufParse]
  obtain ⟨a, b, hroot, -⟩ := (HufTree.node l r).standsAt_parsedInto (x := 0) (arena := [.unset]) (by decide)
  simp only [hufBody, hparse, List.getD_eq_getElem?_getD, hroot, Option.getD_some]

/-- R140, R147, R150: a tree and codes of it whose bytes fit, to the end of the meaningful bits. -/
theorem hufBody_tree_codes {l r : HufTree} (h : (HufTree.node l r).nodes ≤ Config.nodeMax) (pad : Nat)
    {codes : List (List Bool)} {ds : List Byte} (hcodes : codes.map (HufTree.node l r).codeOf = ds.map some) {cap : Nat}
    (hroom : ds.length ≤ cap) : hufBody pad ((HufTree.node l r).bits ++ codes.flatten) cap =
      ⟨none, ds, pad,
        ⟨(HufTree.node l r).parsedInto 0 [.unset], ((HufTree.node l r).bits ++ codes.flatten).length, ds.length⟩⟩ := by
  have hwalk := hufWalk_codes ((HufTree.node l r).standsAt_parsedInto (x := 0) (arena := [.unset]) (by decide)) hcodes hroom []
  simp only [List.append_nil, hufWalk, if_true] at hwalk
  simp only [hufBody_tree h, hwalk, List.length_nil, Nat.sub_zero]

/-- R88: the header byte gives its padding count back. -/
theorem hufHeader_padding {pad : Nat} (h : pad < 256) : ((hufHeader pad).toNat + 128) % 256 = pad := by
  simp only [hufHeader, BitVec.toNat_ofNat]
  omega

/-- R88, R140: the meaningful bits are those before the padding. -/
theorem hufDecode_header {pad : Nat} (hpad : pad < 256) {bits padBits : List Bool} (hlen : padBits.length = pad)
    {body : List Byte} (hbody : streamBits body = bits ++ padBits) (hne : bits ≠ []) (cap : Nat) :
    hufDecode (hufHeader pad :: body) cap = hufBody pad bits cap := by
  have htotal : 8 * body.length = bits.length + pad := by
    rw [← streamBits_length, hbody, List.length_append, hlen]
  have hpos := List.length_pos_iff.2 hne
  have hfits : ¬ pad > 8 * body.length := by omega
  have hmore : ¬ 8 * body.length - pad = 0 := by omega
  have htake : (streamBits body).take (8 * body.length - pad) = bits := by
    rw [hbody, htotal, Nat.add_sub_cancel, List.take_left]
  simp only [hufDecode, hufHeader_padding hpad, hfits, hmore, if_false, htake]

/-- Settles O21: the start checks pass, the parse leaves the tree in the arena, and the walk reads its codes to their end. -/
theorem hufDecDecodesTreeAndCodes : Obligations.HufDecDecodesTreeAndCodes := by
  intro s l r codes ds pad padBits body hwf hsrc hdst hapart hnodes hcodes hpad hlen hstream hbody hroom
  have hrun : exec .hufDec s = .next (s.finishHuf (hufDecode s.srcBytes s.latched.dst.len)) :=
    exec_of_none (startChecks_decoder_eq_none (.inl rfl) hsrc hdst hapart)
  have hcount : ((HufTree.node l r).parsedInto 0 [.unset]).length = (HufTree.node l r).nodes := by
    have := (HufTree.node l r).length_parsedInto 0 [.unset]
    rw [List.length_singleton] at this
    omega
  rw [hrun, hstream, hufDecode_header hpad hlen hbody (by simp [HufTree.bits]),
    hufBody_tree_codes (cap := s.latched.dst.len) hnodes pad hcodes hroom, ← hcount]
  exact ⟨_, _, rfl, Memory.holds_writeBytes hwf _ _⟩

end Sys2Proof.Machine
end

section
/-! PROOFS. The life of a command (R100 to R104): how a write to CMD is accepted or dropped, which command a step runs, what each
completion leaves in the status bits, and that a block does not stay BUSY. -/
namespace Sys2Proof.Machine

/-! ## Issue (R100 to R102) -/

theorem State.issue_idle {s : State} (h : s.regs.phase = .idle) (w : Word) : s.issue w = s.accept w := by
  simp [State.issue, h]

theorem State.issue_busy {s : State} (h : s.regs.phase = .busy) (w : Word) : s.issue w = s.dropCmd := by
  simp [State.issue, h]

/-- R100: with reset released a 32-bit write to CMD issues its word. -/
theorem applyInput_writeCmd {s : State} (w : Word) (hrst : s.resetAsserted = false) :
    applyInput (.regWrite (s.platform.regBase + 0x004) 4 w) s = .next (s.issue w) :=
  applyInput_regWrite .cmd w hrst

/-- Settles O7: an idle block accepts the word it is issued, and acceptance is the update of R101. -/
theorem cmdWriteIsAcceptedWhenIdle : Obligations.CmdWriteIsAcceptedWhenIdle := by
  intro s w hrst hidle
  refine ⟨(s.accept w).guards, ?_⟩
  rw [applyInput_writeCmd w hrst, State.issue_idle hidle]
  rfl

/-- Settles O8: a BUSY block drops the word it is issued. -/
theorem cmdWriteIsDroppedWhenBusy : Obligations.CmdWriteIsDroppedWhenBusy := by
  intro s w hrst hbusy
  rw [applyInput_writeCmd w hrst, State.issue_busy hbusy]
  rfl

/-! ## The step that runs a command (R104) -/

/-- The step after a word is placed is the engine's turn just after the word's acceptance. -/
theorem step_withFetchWord (s : State) {w : Nat} (hw : w < 2 ^ 32) :
    step (s.withFetchWord 32 w) = engineTurn ({ s with resetAsserted := false }.accept (BitVec.ofNat 32 w)) := by
  rw [State.withFetchWord, Nat.mod_eq_of_lt hw]
  rfl

/-- Settles O6: each of the three steps is an engine's turn, which runs the latched command. -/
theorem stepRunsTheLatchedCommand : Obligations.StepRunsTheLatchedCommand := by
  refine ⟨fun s i hbusy hd hi => ?noAction, fun s i rest hbusy hd hi => ?engine, fun s i w hw hd => ?fetched⟩
  case noAction => rw [step_nil hi, engineTurn_ok hbusy hd]
  case engine =>
    rw [step_cons hi]
    exact engineTurn_ok (s := { s with inputs := rest }) hbusy hd
  case fetched =>
    rw [step_withFetchWord s hw]
    exact engineTurn_ok rfl hd

/-! ## What a completion leaves (R104, R195, R196) -/

/-- R110: no start check is about NOP. -/
theorem startChecks_nop (s : State) : startChecks .nop s = none := rfl

/-- Settles O12: NOP passes its start checks, and its run is the completion Done. -/
theorem nopCompletes : Obligations.NopCompletes := fun s => exec_of_none (startChecks_nop s)

/-- R104: every command answers a next state, with the registers of a completion and some results. -/
theorem exec_completes (i : Instr) (s : State) :
    ∃ t e x, exec i s = .next t ∧ t.regs = (s.complete e).regs.setResults x := by
  cases hc : startChecks i s with
  | none => exact ⟨runOf i s, outcomeOf i s, resultsOf i s, exec_of_none hc, runOf_regs i s⟩
  | some e => exact ⟨s.completeError e, some e, s.regs.results, exec_of_some hc, rfl⟩

/-- Settles O9: the completion's outcome is Done, which sets DONE alone, or an error, which sets ERR and its code. -/
theorem everyCommandCompletes : Obligations.EveryCommandCompletes := by
  intro i s hdone herr
  obtain ⟨t, outcome, x, hexec, hregs⟩ := exec_completes i s
  refine ⟨t, hexec, exec_phase hexec, ?_⟩
  rw [hregs]
  cases outcome with
  | none => simp [Regs.setResults, herr]
  | some e => simp [Regs.setResults, hdone, e.code_mem_errorCodes, e.code_ne_zero]

/-! ## A command in progress is over in the end (R104, R233) -/

/-- The engine's turn leaves an idle block. -/
theorem engineTurn_next_idle (s : State) : ∃ t, engineTurn s = .next t ∧ t.regs.phase = .idle := by
  rcases engineTurn_cases (s := s) rfl with ⟨hidle, h⟩ | ⟨-, -, h⟩ | ⟨-, i, -, h⟩
  · exact ⟨s, h, hidle⟩
  · exact ⟨_, h, rfl⟩
  · obtain ⟨t, -, -, ht, -⟩ := exec_completes i s
    exact ⟨t, h ▸ ht, exec_phase ht⟩

/-- No action changes the actions to come. -/
theorem Effect.inputs_eq {s t : State} (h : Effect s t) : t.inputs = s.inputs := by
  cases h with
  | turn h =>
    rcases engineTurn_cases h with ⟨-, ht⟩ | ⟨-, -, ht⟩ | ⟨-, i, -, he⟩
    · cases ht; rfl
    · cases ht; rfl
    · obtain ⟨-, -, -, hinputs, -⟩ := exec_frame he
      exact hinputs
  | wrote r v =>
    obtain ⟨-, -, hinputs, -⟩ := s.writeReg_frame r v
    exact hinputs
  | reset => exact s.resetBlock_inputs
  | looked | nothing | stored | released | readmitted => rfl

/-- A step takes one action from the list. -/
theorem step_inputs {s t : State} {e : Input} {rest : List Input} (hi : s.inputs = e :: rest) (h : step s = .next t) :
    t.inputs = rest :=
  (applyInput_effect (step_cons hi ▸ h)).inputs_eq

/-- The outcomes in which no command is in progress: an idle block, or a run that has stopped. -/
def Settled (o : Outcome) : Prop :=
  (∃ t, o = .next t ∧ t.regs.phase = .idle) ∨ (∃ f, o = .fault f) ∨ (∃ r, o = .refused r)

section
variable {s : State} (k : Nat)

/-- A run goes on from the state that its first step answers. -/
theorem run_of_next {t : State} (h : step s = .next t) : Sys2Proof.core.run (k + 1) s = Sys2Proof.core.run k t := by
  simp [Host.Core.run, Sys2Proof.core, h]

/-- A run stops with the fault of its first step. -/
theorem run_of_fault {f : Fault} (h : step s = .fault f) : Sys2Proof.core.run (k + 1) s = .fault f := by
  simp [Host.Core.run, Sys2Proof.core, h]

/-- A run stops with the refusal of its first step. -/
theorem run_of_refused {r : Refusal} (h : step s = .refused r) : Sys2Proof.core.run (k + 1) s = .refused r := by
  simp [Host.Core.run, Sys2Proof.core, h]

end

/-- From every state the run has settled one step after the last action: each action is taken from the list, and with none left
the engine's turn completes the command. -/
theorem run_settles {inputs : List Input} {s : State} (hi : s.inputs = inputs) :
    Settled (Sys2Proof.core.run (inputs.length + 1) s) := by
  induction inputs generalizing s with
  | nil =>
    obtain ⟨t, hturn, hidle⟩ := engineTurn_next_idle s
    exact .inl ⟨t, run_of_next 0 ((step_nil hi).trans hturn), hidle⟩
  | cons e rest ih =>
    cases hstep : step s with
    | next t =>
      rw [List.length_cons, run_of_next _ hstep]
      exact ih (step_inputs hi hstep)
    | fault f => exact .inr (.inl ⟨f, run_of_fault _ hstep⟩)
    | refused r => exact .inr (.inr ⟨r, run_of_refused _ hstep⟩)

/-- Settles O10: whatever the actions do, the run has settled one step after the last of them. -/
theorem busyBlockBecomesIdle : Obligations.BusyBlockBecomesIdle := fun s _ =>
  ⟨s.inputs.length + 1, Nat.le_refl _, run_settles rfl⟩

end Sys2Proof.Machine
end

section
/-! PROOFS. The geometry of HAM.CFG (R120, R121), and the syndrome as a linear map of the block (R123, R127, R128): it sends the XOR
of two blocks to the XOR of their syndromes, so what a change of the block does to the syndrome depends on the changed bits alone. -/
namespace Sys2Proof.Machine

/-! ## The geometry (R120, R121) -/

/-- R105: a legal `k` is all that HAM.CFG is checked for. -/
theorem startChecks_hamCfg_eq_none (s : State) {k : Nat} (h1 : 1 ≤ k) (hk : k ≤ Config.hamKMax) :
    startChecks (.hamCfg k) s = none := by
  refine (startChecks_eq_none _ _).2 ⟨?param, ?range, ?overlap, ?admission, ?length⟩
  case param => simp [paramCheck, Nat.one_le_iff_ne_zero.1 h1, hk]
  case range => simp [rangeCheck, usesSrc, usesDst]
  case overlap => simp [overlapCheck, usesSrc]
  case admission => simp [admitCheck, usesSrc, usesDst]
  case length => rfl

/-- R121: one parity bit protects no data bit. -/
theorem two_le_parityBits {k : Nat} (h1 : 1 ≤ k) : 2 ≤ parityBits k := by
  obtain ⟨hge, hpos, -⟩ := parityBits_spec k
  by_contra hlt
  have hone : parityBits k = 1 := by omega
  rw [hone] at hge
  omega

/-- Settles O13: `parityBits k` is the smallest solution, and the bounds of R121 are the inequality at it and its failure
one below. -/
theorem hamCfgSetsTheGeometry : Obligations.HamCfgSetsTheGeometry := by
  intro s k h1 hk
  have h2 := two_le_parityBits h1
  obtain ⟨hge, -, hmin⟩ := parityBits_spec k
  have hbelow := hmin (parityBits k - 1) (by omega) (by omega)
  refine ⟨parityBits k, h2, parityBits_le hk, hge, fun q hq => ?smallest, by omega, by omega, ?runs⟩
  case smallest =>
    rcases Nat.eq_zero_or_pos q with rfl | hpos
    · omega
    · exact hmin q hpos hq
  case runs => exact exec_of_none (startChecks_hamCfg_eq_none s h1 hk)

/-! ## The syndrome of a block -/

/-- The XOR of the positions, 1 to `n`, at which the block is 1 (R123); `block i` is the bit at position `i`. -/
def blockSyndrome (block : Nat → Bool) : Nat → Nat
  | 0 => 0
  | n + 1 => blockSyndrome block n ^^^ if block (n + 1) then n + 1 else 0

@[simp] theorem blockSyndrome_zero (block : Nat → Bool) : blockSyndrome block 0 = 0 := rfl

theorem blockSyndrome_succ (block : Nat → Bool) (n : Nat) :
    blockSyndrome block (n + 1) = blockSyndrome block n ^^^ if block (n + 1) then n + 1 else 0 := rfl

/-- Only the bits at positions 1 to `n` count. -/
theorem blockSyndrome_congr {b c : Nat → Bool} {n : Nat} (h : ∀ i, 1 ≤ i → i ≤ n → b i = c i) :
    blockSyndrome b n = blockSyndrome c n := by
  induction n with
  | zero => rfl
  | succ n ih =>
    rw [blockSyndrome_succ, blockSyndrome_succ, ih fun i h1 hn => h i h1 (by omega), h (n + 1) (by omega) (Nat.le_refl _)]

/-- The syndrome is linear. -/
theorem blockSyndrome_xor (b c : Nat → Bool) (n : Nat) :
    blockSyndrome (fun i => b i ^^ c i) n = blockSyndrome b n ^^^ blockSyndrome c n := by
  induction n with
  | zero => simp
  | succ n ih =>
    have hlast : (if b (n + 1) ^^ c (n + 1) then n + 1 else 0) =
        (if b (n + 1) then n + 1 else 0) ^^^ (if c (n + 1) then n + 1 else 0) := by
      cases b (n + 1) <;> cases c (n + 1) <;> simp
    rw [blockSyndrome_succ, blockSyndrome_succ, blockSyndrome_succ, ih, hlast]
    ac_rfl

/-- A block whose only 1 is at position `p` has syndrome `p`. -/
theorem blockSyndrome_single {p : Nat} (h1 : 1 ≤ p) (n : Nat) :
    blockSyndrome (fun i => decide (i = p)) n = if p ≤ n then p else 0 := by
  induction n with
  | zero => rw [blockSyndrome_zero, if_neg (by omega)]
  | succ n ih =>
    rw [blockSyndrome_succ, ih]
    rcases Nat.lt_trichotomy p (n + 1) with hlt | rfl | hgt
    · simp [Nat.lt_succ_iff.1 hlt, Nat.le_of_lt hlt, Nat.ne_of_gt hlt]
    · simp
    · simp [Nat.not_le.2 hgt, Nat.not_le.2 (Nat.lt_of_succ_lt hgt), Nat.ne_of_lt hgt]

/-- Row `j` of the ParityMatrix selects one parity position, `2^j` (R122): a block with 1s at parity positions only has its bits
there as its syndrome. -/
theorem blockSyndrome_testBit_of_parity_only {block : Nat → Bool} {n : Nat}
    (h : ∀ i, 1 ≤ i → i ≤ n → block i = true → ∃ j, i = 2 ^ j) (j : Nat) :
    (blockSyndrome block n).testBit j = (decide (2 ^ j ≤ n) && block (2 ^ j)) := by
  have hpos := Nat.two_pow_pos j
  induction n with
  | zero => simp
  | succ n ih =>
    rw [blockSyndrome_succ, Nat.testBit_xor, ih fun i h1 hn => h i h1 (by omega)]
    by_cases hj : 2 ^ j = n + 1
    · have hlast : (if block (n + 1) then n + 1 else 0).testBit j = block (2 ^ j) := by
        rw [← hj]
        cases block (2 ^ j) <;> simp
      simp [hlast, hj]
    · have hlast : (if block (n + 1) then n + 1 else 0).testBit j = false := by
        split
        next hone =>
          obtain ⟨l, hl⟩ := h (n + 1) (by omega) (Nat.le_refl _) hone
          rw [hl, Nat.testBit_two_pow_of_ne]
          rintro rfl
          exact hj hl.symm
        next => exact Nat.zero_testBit j
      have hle : 2 ^ j ≤ n ↔ 2 ^ j ≤ n + 1 := by omega
      simp [hlast, hle]

/-! ## The block of HAM.SYN (R93, R123) -/

/-- R93: the bit at position `i` of the block that HAM.SYN reads. -/
def State.blockBit (s : State) (i : Nat) : Bool := s.mem.bit s.latched.srcAddr.toNat (s.latched.hamBitoff.toNat + (i - 1))

/-- R93, R123: the unit's fold over a block inside the source window is the syndrome of that block. -/
theorem syndromeOf_srcBytes (s : State) {n : Nat} (h : s.latched.hamBitoff.toNat + n ≤ 8 * s.latched.srcLen.toNat) :
    syndromeOf s.srcBytes s.latched.hamBitoff.toNat n = blockSyndrome s.blockBit n := by
  induction n with
  | zero => rfl
  | succ n ih =>
    have hbit : streamBit s.srcBytes (s.latched.hamBitoff.toNat + n) = s.blockBit (n + 1) :=
      streamBit_readBytes s.mem _ (n := s.latched.srcLen.toNat) (by omega)
    rw [syndromeOf_succ, blockSyndrome_succ, ih (by omega), hbit]
    cases s.blockBit (n + 1) <;> simp

section
variable {s : State} (hk : s.regs.hamK ≠ 0#16) (hsrc : s.SrcFits)
  (hblock : s.latched.hamBitoff.toNat + s.regs.hamN.toNat ≤ 8 * s.latched.srcLen.toNat)
include hk hsrc hblock

/-- HAM.SYN completes with the syndrome of its block, of which SYNDROME.S loses no bit (R42). -/
theorem exec_hamSyn : ∃ t, exec .hamSyn s = .next t ∧ t.regs.syndrome.toNat = blockSyndrome s.blockBit s.regs.hamN.toNat := by
  refine ⟨_, exec_of_none (startChecks_hamSyn_eq_none hk hsrc hblock), ?_⟩
  rw [← syndromeOf_srcBytes s hblock]
  exact Nat.mod_eq_of_lt (syndromeOf_lt _ _ s.regs.hamN.isLt)

theorem exec_hamSyn_syndrome {t : State} (h : exec .hamSyn s = .next t) :
    t.regs.syndrome.toNat = blockSyndrome s.blockBit s.regs.hamN.toNat := by
  obtain ⟨t', h', hsyn⟩ := exec_hamSyn hk hsrc hblock
  cases h.symm.trans h'
  exact hsyn

/-- R127, R128: what HAM.SYN gives after a change of memory differs from what it gave before by the syndrome of the
changed bits. -/
theorem exec_hamSyn_of_changed {t : State} (h : exec .hamSyn s = .next t) (m : Memory) :
    ∃ t', exec .hamSyn { s with mem := m } = .next t' ∧ t'.regs.syndrome.toNat = t.regs.syndrome.toNat ^^^
      blockSyndrome (fun i => s.blockBit i ^^ { s with mem := m }.blockBit i) s.regs.hamN.toNat := by
  obtain ⟨t', h', hsyn⟩ := exec_hamSyn (s := { s with mem := m }) hk hsrc hblock
  refine ⟨t', h', ?_⟩
  rw [hsyn, exec_hamSyn_syndrome hk hsrc hblock h, blockSyndrome_xor, ← Nat.xor_assoc, Nat.xor_self, Nat.zero_xor]

end

/-! ## A single-bit error (R127) -/

/-- R7: the mask of stream bit `u` in its byte. -/
theorem getLsbD_streamMask (u t : Nat) : (0x80#8 >>> (u % 8)).getLsbD (7 - t % 8) = decide (t % 8 = u % 8) := by
  have hmask : 0x80#8 = BitVec.twoPow 8 7 := rfl
  rw [hmask, BitVec.getLsbD_ushiftRight, BitVec.getLsbD_twoPow]
  simp only [show 7 < 8 by decide, decide_true, Bool.true_and, decide_eq_decide]
  omega

/-- Flipping stream bit `u` in its byte flips that bit and no other. -/
theorem Memory.bit_flip {m : Memory} (h : m.wf) (base u t : Nat) :
    (m.write (base + u / 8) (m.read (base + u / 8) ^^^ (0x80#8 >>> (u % 8)))).bit base t = (m.bit base t ^^ decide (t = u)) := by
  by_cases hbyte : t / 8 = u / 8
  · have hiff : t % 8 = u % 8 ↔ t = u := by omega
    simp only [Memory.bit, hbyte, Memory.read_write_same _ _ h, BitVec.getLsbD_xor, getLsbD_streamMask, hiff]
  · have hne : t ≠ u := fun heq => hbyte (by rw [heq])
    simp only [Memory.bit, Memory.read_write_other (a := base + u / 8) (b := base + t / 8) _ (by omega), hne, decide_false,
      Bool.xor_false]

/-- R127: the memory of `s` with exactly the bit at position `p` of its block flipped. -/
def State.memFlippedAt (s : State) (p : Nat) : Memory :=
  let u := s.latched.hamBitoff.toNat + p - 1
  let a := s.latched.srcAddr.toNat + u / 8
  s.mem.write a (s.mem.read a ^^^ (0x80#8 >>> (u % 8)))

theorem State.blockBit_memFlippedAt {s : State} (hwf : s.mem.wf) {p i : Nat} (hp : 1 ≤ p) (hi : 1 ≤ i) :
    { s with mem := s.memFlippedAt p }.blockBit i = (s.blockBit i ^^ decide (i = p)) := by
  have hiff : s.latched.hamBitoff.toNat + (i - 1) = s.latched.hamBitoff.toNat + p - 1 ↔ i = p := by omega
  simp only [State.blockBit, State.memFlippedAt, Memory.bit_flip hwf, hiff]

/-- Settles O15: the changed bits are the one at position `p`, and their syndrome is `p`. -/
theorem singleBitErrorNamesItsPosition : Obligations.SingleBitErrorNamesItsPosition := by
  intro s t p hwf hk hsrc hblock hexec hzero h1 hpn u a hu ha
  subst hu ha
  obtain ⟨t', hexec', hsyn⟩ := exec_hamSyn_of_changed hk hsrc hblock hexec (s.memFlippedAt p)
  have hold : t.regs.syndrome.toNat = 0 := by rw [hzero]; rfl
  have hchange : blockSyndrome (fun i => s.blockBit i ^^ { s with mem := s.memFlippedAt p }.blockBit i)
      s.regs.hamN.toNat = p := by
    rw [blockSyndrome_congr (c := fun i => decide (i = p)), blockSyndrome_single h1, if_pos hpn]
    intro i hi _
    rw [State.blockBit_memFlippedAt hwf h1 hi, ← Bool.xor_assoc, Bool.xor_self, Bool.false_xor]
  have hp : p < 2 ^ 16 := Nat.lt_of_le_of_lt hpn s.regs.hamN.isLt
  refine ⟨t', hexec', BitVec.eq_of_toNat_eq ?_⟩
  rw [hsyn, hold, hchange, Nat.zero_xor, BitVec.toNat_ofNat, Nat.mod_eq_of_lt hp]

/-! ## Parity bits from the syndrome (R128) -/

/-- R121: the parity positions of a configured block are those `2^j` with `j` below `r`. -/
theorem Regs.HammingOk.two_pow_le_iff {r : Regs} (h : r.HammingOk) (hne : r.hamK ≠ 0#16) (j : Nat) :
    2 ^ j ≤ r.hamN.toNat ↔ j < r.hamR.toNat := by
  rcases h with ⟨hzero, -⟩ | ⟨h1, -, hge, hmin, hsum, -⟩
  · exact absurd hzero hne
  · refine ⟨fun hle => ?_, fun hlt => ?_⟩
    · exact (Nat.pow_lt_pow_iff_right (by decide)).1 (show 2 ^ j < 2 ^ r.hamR.toNat by omega)
    · rcases Nat.eq_zero_or_pos j with rfl | hpos
      · omega
      · have := hmin j hpos hlt
        omega

/-- R125: a configured HAM.SYN sets no syndrome bit from `r` up. -/
theorem exec_hamSyn_testBit_of_le {s t : State} (hham : s.regs.HammingOk) (hk : s.regs.hamK ≠ 0#16) (hsrc : s.SrcFits)
    (hblock : s.latched.hamBitoff.toNat + s.regs.hamN.toNat ≤ 8 * s.latched.srcLen.toNat) (hexec : exec .hamSyn s = .next t)
    {j : Nat} (hj : s.regs.hamR.toNat ≤ j) : t.regs.syndrome.toNat.testBit j = false := by
  have hlt : s.regs.hamN.toNat < 2 ^ j := Nat.not_le.1 fun hle => Nat.not_lt.2 hj ((hham.two_pow_le_iff hk j).1 hle)
  rw [exec_hamSyn_syndrome hk hsrc hblock hexec, ← syndromeOf_srcBytes s hblock]
  exact Nat.testBit_lt_two_pow (syndromeOf_lt _ _ hlt)

/-- Settles O16: the changed bits stand at parity positions and are the old syndrome, so they cancel it. -/
theorem syndromeBitsAreTheParityBits : Obligations.SyndromeBitsAreTheParityBits := by
  intro s t m hham hk hsrc hblock hexec hparity hdata
  obtain ⟨t', hexec', hsyn⟩ := exec_hamSyn_of_changed hk hsrc hblock hexec m
  refine ⟨t', hexec', BitVec.eq_of_toNat_eq ?_⟩
  suffices hchange : blockSyndrome (fun i => s.blockBit i ^^ { s with mem := m }.blockBit i) s.regs.hamN.toNat =
      t.regs.syndrome.toNat by
    rw [hsyn, hchange, Nat.xor_self]
    rfl
  refine Nat.eq_of_testBit_eq fun j => ?_
  rw [blockSyndrome_testBit_of_parity_only fun i h1 hn => ?atParity]
  case atParity =>
    intro hchanged
    by_contra hnone
    simp [State.blockBit, hdata i h1 hn (not_exists.1 hnone)] at hchanged
  rcases Nat.lt_or_ge j s.regs.hamR.toNat with hj | hj
  · obtain ⟨hold, hnew⟩ := hparity j hj
    simp [State.blockBit, hham.two_pow_le_iff hk, hj, hold, hnew, BitVec.getLsbD]
  · simp [hham.two_pow_le_iff hk, Nat.not_lt.2 hj, exec_hamSyn_testBit_of_le hham hk hsrc hblock hexec hj]

end Sys2Proof.Machine
end

section
/-! PROOFS. How HUF.DEC ends without a tree, in a tree that it refuses, and in a walk that fails (R141 to R149): which beginnings of
a serialisation the parse runs out in, or finds the arena full in, and where the walk stops in codes of the tree. -/
namespace Sys2Proof.Machine

/-! ## The completion (R105, R140) -/

/-- R105, R140: with windows that fit and are apart, HUF.DEC completes with what the decoder computes. -/
theorem exec_hufDec_eq_finishHuf {s : State} (hsrc : s.SrcFits) (hdst : s.DstFits) (hapart : s.latched.src.Apart s.latched.dst) :
    exec .hufDec s = .next (s.finishHuf (hufDecode s.srcBytes s.latched.dstCap.toNat)) :=
  exec_of_none (startChecks_decoder_eq_none (.inl rfl) hsrc hdst hapart)

/-! ## The header (R141 to R143) -/

section
variable {header : Byte} {body : List Byte} {pad : Nat} (hpad : pad = (header.toNat + 128) % 256) (cap : Nat)
include hpad

/-- R142: no meaningful bit. -/
theorem hufDecode_of_padding_eq (h : pad = 8 * body.length) :
    hufDecode (header :: body) cap = ⟨none, [], pad, ⟨[], 0, 0⟩⟩ := by
  simp [hufDecode, ← hpad, h]

/-- R143: more padding than there are stream bits. -/
theorem hufDecode_of_padding_gt (h : 8 * body.length < pad) :
    hufDecode (header :: body) cap = ⟨some .hufBadHeader, [], pad, ⟨[], 0, 0⟩⟩ := by
  simp [hufDecode, ← hpad, h]

end

theorem State.srcBytes_eq_nil {s : State} (h : s.latched.srcLen.toNat = 0) : s.srcBytes = [] :=
  List.eq_nil_of_length_eq_zero ((s.mem.readBytes_length _ _).trans h)

/-- R88: a source that is not empty is its first byte and the rest. -/
theorem State.srcBytes_eq_cons {s : State} (h : s.latched.srcLen.toNat ≠ 0) :
    ∃ body, s.srcBytes = s.mem.read s.latched.srcAddr.toNat :: body ∧ body.length = s.latched.srcLen.toNat - 1 := by
  obtain ⟨n, hn⟩ := Nat.exists_eq_succ_of_ne_zero h
  refine ⟨s.mem.readBytes (s.latched.srcAddr.toNat + 1) n, ?_, by simp [hn]⟩
  simp only [srcBytes, Latched.src, hn, Memory.readBytes]

/-- Settles O22: the header's padding count against the stream bits decides, and no case writes a byte. -/
theorem hufDecHeaderCases : Obligations.HufDecHeaderCases := by
  intro s hsrc hdst hapart
  rw [exec_hufDec_eq_finishHuf hsrc hdst hapart]
  refine ⟨fun hempty => ?empty, fun hne p hp => ?header⟩
  case empty =>
    rw [State.srcBytes_eq_nil hempty]
    exact ⟨_, rfl⟩
  case header =>
    obtain ⟨body, hstream, hlen⟩ := State.srcBytes_eq_cons hne
    rw [hstream, ← hlen]
    refine ⟨fun heq => ?_, fun hgt => ?_⟩
    · rw [hufDecode_of_padding_eq hp _ heq]
      exact ⟨_, rfl⟩
    · rw [hufDecode_of_padding_gt hp _ hgt]
      exact ⟨_, rfl⟩

/-! ## A leaf at the root (R146) -/

/-- R146: the parse ends with the root, and the root is a leaf. -/
theorem hufBody_leaf (v : Byte) (pad : Nat) (more : List Bool) (cap : Nat) : hufBody pad ((HufTree.leaf v).bits ++ more) cap =
    ⟨some .hufDegenerateTree, [], pad, ⟨[.leaf v], ((HufTree.leaf v).bits ++ more).length - more.length, 0⟩⟩ := by
  have hparse : hufParse ((HufTree.leaf v).bits ++ more) [0] [.unset] = ⟨none, [.leaf v], more⟩ := by
    rw [hufParse_bits (.leaf v) more 0 [] [.unset] (show 2 ≤ 512 by decide), hufParse]
    rfl
  simp [hufBody, hparse]

/-- Settles O23: the parse reads the leaf, and nothing behind it is looked at. -/
theorem hufDecRefusesLeafRoot : Obligations.HufDecRefusesLeafRoot := by
  intro s v pad more padBits body hsrc hdst hapart hpad hlen hstream hbody
  rw [exec_hufDec_eq_finishHuf hsrc hdst hapart, hstream, hufDecode_header hpad hlen hbody (by simp [HufTree.bits]), hufBody_leaf]
  exact ⟨_, rfl⟩

/-! ## A part of a serialisation (R89) -/

/-- R89: a beginning of an internal node's serialisation ends before the node's bit, in the left subtree, or in the right
subtree. -/
theorem HufTree.isPrefix_node_cases {l r : HufTree} {bits : List Bool} (h : bits <+: (HufTree.node l r).bits) :
    bits = [] ∨ (∃ part, bits = true :: part ∧ part <+: l.bits ∧ part.length < l.bits.length) ∨
      ∃ part, bits = true :: (l.bits ++ part) ∧ part <+: r.bits := by
  rw [HufTree.bits, List.prefix_cons_iff] at h
  obtain rfl | ⟨part, rfl, hpart⟩ := h
  · exact .inl rfl
  · rcases Nat.lt_or_ge part.length l.bits.length with hlt | hge
    · exact .inr (.inl ⟨part, rfl, List.prefix_of_prefix_length_le hpart (List.prefix_append _ _) (Nat.le_of_lt hlt), hlt⟩)
    · obtain ⟨part, rfl⟩ := List.prefix_of_prefix_length_le (List.prefix_append _ _) hpart hge
      exact .inr (.inr ⟨part, rfl, (List.prefix_append_right_inj _).1 hpart⟩)

/-- A part that ends in the left subtree holds no bit of the right one. -/
theorem HufTree.internalBits_node_of_le (l r : HufTree) {n : Nat} (h : n ≤ l.bits.length) :
    (HufTree.node l r).internalBits (n + 1) = 1 + l.internalBits n := by
  rw [internalBits, Nat.sub_eq_zero_of_le h, internalBits_zero, Nat.add_zero]

/-- A part that ends in the right subtree holds all bits of the left one. -/
theorem HufTree.internalBits_node_add (l r : HufTree) (n : Nat) :
    (HufTree.node l r).internalBits (l.bits.length + n + 1) = 1 + l.internalBits l.bits.length + r.internalBits n := by
  have hl := l.internalBits_whole (Nat.le_add_right l.bits.length n)
  have hwhole := l.internalBits_whole (Nat.le_refl _)
  rw [internalBits, Nat.add_sub_cancel_left]
  omega

/-! ## The parse that fails (R144, R145) -/

section
variable (bits : List Bool) (x : Nat) (stack : List Nat) {arena : List HufNode}

/-- R144: with room for two nodes, the bit of an internal node allocates its children. -/
theorem hufParse_internal (h : arena.length + 2 ≤ Config.nodeMax) : hufParse (true :: bits) (x :: stack) arena =
    hufParse bits (arena.length :: (arena.length + 1) :: stack) (allocateChildren x arena) := by
  rw [hufParse, if_neg (Nat.not_lt.2 h)]
  rfl

/-- R145: without room for two nodes, the bit of an internal node overflows the arena. -/
theorem hufParse_full (h : Config.nodeMax < arena.length + 2) :
    hufParse (true :: bits) (x :: stack) arena = ⟨some .hufTreeOverflow, arena, bits⟩ := by
  rw [hufParse, if_pos h]

/-- R144: with room for a left subtree, the parse goes on at the right child, two nodes further for each internal node read. -/
theorem hufParse_internal_left (l : HufTree) (h : arena.length + 2 + 2 * l.internalBits l.bits.length ≤ Config.nodeMax) :
    ∃ mid : List HufNode, mid.length = arena.length + 2 + 2 * l.internalBits l.bits.length ∧
      hufParse (true :: (l.bits ++ bits)) (x :: stack) arena = hufParse bits ((arena.length + 1) :: stack) mid := by
  have hwhole := l.internalBits_whole (Nat.le_refl _)
  have halloc := length_allocateChildren x arena
  have hmid := l.length_parsedInto arena.length (allocateChildren x arena)
  refine ⟨l.parsedInto arena.length (allocateChildren x arena), by omega, ?_⟩
  rw [hufParse_internal _ _ _ (by omega), hufParse_bits _ _ _ _ _ (by omega)]

end

/-- R144: a leaf's bit needs eight bits behind it. -/
theorem hufParse_short_leaf {bits : List Bool} (h : bits.length < 8) (x : Nat) (stack : List Nat) (arena : List HufNode) :
    hufParse (false :: bits) (x :: stack) arena = ⟨some .hufTreeTruncated, arena, []⟩ := by
  rw [hufParse]
  · simp
  · rintro b7 b6 b5 b4 b3 b2 b1 b0 bits ⟨⟩
    simp only [List.length_cons] at h
    omega

/-- R144: bits that end inside a tree that fits so far are truncated, with two nodes allocated for each internal node's bit. -/
theorem hufParse_truncated (t : HufTree) {bits : List Bool} (hpart : bits <+: t.bits) (hlt : bits.length < t.bits.length)
    (x : Nat) (stack : List Nat) {arena : List HufNode} (hroom : arena.length + 2 * t.internalBits bits.length ≤ Config.nodeMax) :
    ∃ final, hufParse bits (x :: stack) arena = ⟨some .hufTreeTruncated, final, []⟩ ∧
      final.length = arena.length + 2 * t.internalBits bits.length := by
  induction t generalizing bits x stack arena with
  | leaf v =>
    refine ⟨arena, ?_, rfl⟩
    rw [HufTree.bits, List.prefix_cons_iff] at hpart
    obtain rfl | ⟨part, rfl, -⟩ := hpart
    · rfl
    · simp only [HufTree.bits, List.length_cons, bitsOfByte_length] at hlt
      exact hufParse_short_leaf (by omega) _ _ _
  | node l r il ir =>
    have halloc := length_allocateChildren x arena
    obtain rfl | ⟨part, rfl, hleft, hshort⟩ | ⟨part, rfl, hright⟩ := HufTree.isPrefix_node_cases hpart
    · exact ⟨arena, rfl, by simp⟩
    · rw [List.length_cons, HufTree.internalBits_node_of_le l r (Nat.le_of_lt hshort)] at hroom ⊢
      rw [hufParse_internal _ _ _ (by omega)]
      obtain ⟨final, hparse, hcount⟩ := il hleft hshort _ _ (arena := allocateChildren x arena) (by omega)
      exact ⟨final, hparse, by omega⟩
    · rw [List.length_cons, List.length_append, HufTree.internalBits_node_add] at hroom ⊢
      obtain ⟨mid, hmid, hthrough⟩ := hufParse_internal_left part x stack l (arena := arena) (by omega)
      rw [hthrough]
      obtain ⟨final, hparse, hcount⟩ := ir hright (by simpa [HufTree.bits] using hlt) _ _ (arena := mid) (by omega)
      exact ⟨final, hparse, by omega⟩

/-- R145: a part of a tree with more internal nodes than the arena has room for fills it, whatever follows the part. A number of
nodes that is odd stays odd, so a full arena holds exactly NODE_MAX. -/
theorem hufParse_overflow (t : HufTree) {read : List Bool} (hpart : read <+: t.bits) (rest : List Bool) (x : Nat)
    (stack : List Nat) {arena : List HufNode} (hodd : arena.length % 2 = 1) (hle : arena.length ≤ Config.nodeMax)
    (hroom : Config.nodeMax < arena.length + 2 * t.internalBits read.length) :
    ∃ final unread, hufParse (read ++ rest) (x :: stack) arena = ⟨some .hufTreeOverflow, final, unread⟩ ∧
      final.length = Config.nodeMax := by
  induction t generalizing read rest x stack arena with
  | leaf v => exact absurd hroom (Nat.not_lt.2 hle)
  | node l r il ir =>
    have hmax : Config.nodeMax % 2 = 1 := rfl
    have halloc := length_allocateChildren x arena
    rcases read with _ | ⟨b, read⟩
    · exact absurd hroom (by simpa using hle)
    obtain rfl : b = true := (List.cons_prefix_cons.1 hpart).1
    rw [List.cons_append]
    rcases Nat.lt_or_ge Config.nodeMax (arena.length + 2) with hfull | hfits
    · exact ⟨arena, _, hufParse_full _ _ _ hfull, by omega⟩
    obtain hnil | ⟨part, ⟨⟩, hleft, hshort⟩ | ⟨part, ⟨⟩, hright⟩ := HufTree.isPrefix_node_cases hpart
    · cases hnil
    · rw [List.length_cons, HufTree.internalBits_node_of_le l r (Nat.le_of_lt hshort)] at hroom
      rw [hufParse_internal _ _ _ hfits]
      exact il hleft _ _ _ (by omega) (by omega) (by omega)
    · rw [List.length_cons, List.length_append, HufTree.internalBits_node_add] at hroom
      rw [List.append_assoc]
      rcases Nat.lt_or_ge Config.nodeMax (arena.length + 2 + 2 * l.internalBits l.bits.length) with hover | hleftFits
      · rw [hufParse_internal _ _ _ hfits]
        exact il (List.prefix_refl _) _ _ _ (by omega) (by omega) (by omega)
      · obtain ⟨mid, hmid, hthrough⟩ := hufParse_internal_left (part ++ rest) x stack l hleftFits
        rw [hthrough]
        exact ir hright _ _ _ (by omega) (by omega) (by omega)

/-- R144 to R146: a parse that fails ends the command, and nothing is written. -/
theorem hufBody_of_parse_error {bits rest : List Bool} {e : ErrCode} {arena : List HufNode}
    (h : hufParse bits [0] [.unset] = ⟨some e, arena, rest⟩) (pad cap : Nat) :
    hufBody pad bits cap = ⟨some e, [], pad, ⟨arena, bits.length - rest.length, 0⟩⟩ := by
  simp only [hufBody, h]

/-- Settles O24: from an arena of one node, 255 internal nodes fit and 256 do not. -/
theorem hufDecTreeErrors : Obligations.HufDecTreeErrors := by
  intro s t pad bits padBits body hsrc hdst hapart hpad hlen hstream hbody
  rw [exec_hufDec_eq_finishHuf hsrc hdst hapart, hstream]
  refine ⟨fun hne hpart hfits => ?truncated, fun hpart => ?overflow⟩
  case truncated =>
    obtain ⟨more, hmore, hbits⟩ := hpart
    have hlt : bits.length < t.bits.length := by
      have := List.length_pos_iff.2 hmore
      rw [← hbits, List.length_append]
      omega
    obtain ⟨final, hparse, hcount⟩ := hufParse_truncated t ⟨more, hbits⟩ hlt 0 [] (arena := [.unset])
      (by simp only [List.length_singleton, Config.nodeMax]; omega)
    rw [List.length_singleton] at hcount
    rw [hufDecode_header hpad hlen hbody hne, hufBody_of_parse_error hparse, ← hcount]
    exact ⟨_, rfl⟩
  case overflow =>
    obtain ⟨read, more, rest, rfl, hread, hmany⟩ := hpart
    have hne : read ++ rest ≠ [] := by
      intro hnil
      obtain ⟨rfl, -⟩ := List.append_eq_nil_iff.1 hnil
      simp at hmany
    obtain ⟨final, unread, hparse, hcount⟩ := hufParse_overflow t ⟨more, hread⟩ rest 0 [] (arena := [.unset]) rfl
      (by decide) (by simp only [List.length_singleton, Config.nodeMax]; omega)
    rw [hufDecode_header hpad hlen hbody hne, hufBody_of_parse_error hparse, show 511 = final.length from hcount.symm]
    exact ⟨_, rfl⟩

/-! ## The walk that fails (R148, R149) -/

/-- R147: no bit leads from an internal node back to the root. -/
theorem HufTree.StandsAt.child_ne_zero {arena : List HufNode} {l r : HufTree} {x : Nat} (h : (HufTree.node l r).StandsAt arena x)
    (b : Bool) : (arena.getD x .unset).child b ≠ 0 := by
  obtain ⟨a, c, hx, ha, hc, -⟩ := h
  rw [List.getD_eq_getElem?_getD, hx]
  cases b with
  | false => exact ha
  | true => exact hc

/-- R148: a beginning of a code leads to an internal node. Once a bit of the code has been read, that node is not the root, and
the end of the meaningful bits there is HUF_PARTIAL_CODE. -/
theorem hufWalk_partial_code {arena : List HufNode} {l r : HufTree} {x : Nat} (h : (HufTree.node l r).StandsAt arena x)
    {tail more : List Bool} {v : Byte} (hcode : (HufTree.node l r).codeOf (tail ++ more) = some v) (hmore : more ≠ [])
    (hbegun : tail ≠ [] ∨ x ≠ 0) (room : Nat) : hufWalk arena x room tail = ⟨some .hufPartialCode, [], []⟩ := by
  induction tail generalizing l r x with
  | nil =>
    have hx : x ≠ 0 := hbegun.resolve_left fun hnil => hnil rfl
    rw [hufWalk, if_neg hx]
  | cons b tail ih =>
    obtain ⟨t, y, hy, hstands, hsub⟩ := h.child b
    rw [List.cons_append, hsub] at hcode
    cases t with
    | leaf w =>
      obtain ⟨c, code, hcons⟩ := List.exists_cons_of_ne_nil (List.append_ne_nil_of_right_ne_nil tail hmore)
      rw [hcons] at hcode
      cases hcode
    | node l' r' =>
      have ⟨_, _, hyx, _⟩ := hstands
      rw [hufWalk_internal room _ hy hyx, ih hstands hcode (.inr (hy ▸ h.child_ne_zero b))]

/-- R149: the code after those that fill the destination is DST_OVERFLOW, whatever follows it. -/
theorem hufWalk_codes_overflow {arena : List HufNode} {l r : HufTree} (h : (HufTree.node l r).StandsAt arena 0)
    {codes : List (List Bool)} {ds : List Byte} (hcodes : codes.map (HufTree.node l r).codeOf = ds.map some)
    {room : Nat} (hroom : room < ds.length) (tail : List Bool) :
    ∃ rest, hufWalk arena 0 room (codes.flatten ++ tail) = ⟨some .dstOverflow, ds.take room, rest⟩ := by
  induction codes generalizing ds room with
  | nil =>
    obtain rfl : ds = [] := by simpa using hcodes.symm
    exact absurd hroom (Nat.not_lt_zero _)
  | cons code codes ih =>
    cases ds with
    | nil => cases hcodes
    | cons v ds =>
      simp only [List.map_cons, List.cons.injEq] at hcodes
      obtain ⟨hcode, hcodes⟩ := hcodes
      rw [List.flatten_cons, List.append_assoc, hufWalk_code h hcode]
      cases room with
      | zero => exact ⟨_, rfl⟩
      | succ room =>
        obtain ⟨rest, hrest⟩ := ih hcodes (Nat.lt_of_succ_lt_succ hroom)
        exact ⟨rest, by rw [hufWrite, hrest, List.take_succ_cons]⟩

/-- R145: from the root alone, the parse of a tree allocates the rest of its nodes. -/
theorem HufTree.length_parsedInto_root (t : HufTree) : (t.parsedInto 0 [.unset]).length = t.nodes := by
  have := t.length_parsedInto 0 [.unset]
  rw [List.length_singleton] at this
  omega

/-- Settles O25: the walk over the whole codes stops in the part of a code behind them, or at the first code without room. -/
theorem hufDecWalkErrors : Obligations.HufDecWalkErrors := by
  intro s l r codes ds pad tail padBits body hwf hsrc hdst hapart hnodes hcodes hpad hlen hstream hbody
  have hroot := (HufTree.node l r).standsAt_parsedInto (x := 0) (arena := [.unset]) (by decide)
  rw [List.append_assoc (HufTree.bits _)] at hbody
  rw [exec_hufDec_eq_finishHuf hsrc hdst hapart, hstream, hufDecode_header hpad hlen hbody (by simp [HufTree.bits]),
    hufBody_tree hnodes, ← (HufTree.node l r).length_parsedInto_root]
  refine ⟨fun hroom hne hpart => ?partialCode, fun hmany => ?overflow⟩
  case partialCode =>
    obtain ⟨more, v, hmore, hcode⟩ := hpart
    simp only [hufWalk_codes hroot hcodes hroom, hufWalk_partial_code hroot hcode hmore (.inl hne), List.append_nil]
    exact ⟨_, _, rfl, Memory.holds_writeBytes hwf _ _⟩
  case overflow =>
    obtain ⟨rest, hwalk⟩ := hufWalk_codes_overflow hroot hcodes hmany tail
    have hout : BitVec.ofNat 32 (ds.take s.latched.dstCap.toNat).length = s.latched.dstCap := by
      rw [List.length_take, Nat.min_eq_left (Nat.le_of_lt hmany), BitVec.ofNat_toNat, BitVec.setWidth_eq]
    generalize ds.take s.latched.dstCap.toNat = out at hwalk hout ⊢
    simp only [hwalk]
    rw [← hout]
    exact ⟨_, _, rfl, Memory.holds_writeBytes hwf _ _⟩

end Sys2Proof.Machine
end

section
/-! PROOFS. How RLE.DEC ends when it cannot finish, in a record cut off or at a full destination (R169, R170), and the bound on what
it writes (R171). -/
namespace Sys2Proof.Machine

/-- R105, R165: with windows that fit and are apart, RLE.DEC completes with what the decoder computes. -/
theorem exec_rleDec_eq_finishRle {s : State} (hsrc : s.SrcFits) (hdst : s.DstFits) (hapart : s.latched.src.Apart s.latched.dst) :
    exec .rleDec s = .next (s.finishRle (rleDecode s.srcBytes s.latched.dstCap.toNat)) :=
  exec_of_none (startChecks_decoder_eq_none (.inr rfl) hsrc hdst hapart)

/-! ## A record that the end of the window cuts off (R169) -/

/-- R169: a literal count with fewer bytes behind it, or a repeat count with no value byte, is no record. -/
theorem rleRecord_eq_none_of_truncated {c : Byte} {tail : List Byte}
    (h : 0 < c.toInt ∧ (tail.length : Int) < c.toInt ∨ c.toInt ≤ 0 ∧ tail = []) : rleRecord c tail = none := by
  rcases h with ⟨hpos, hshort⟩ | ⟨hcopies, rfl⟩
  · have : c.toInt.toNat > tail.length := by omega
    simp [rleRecord, hpos, this]
  · simp [rleRecord, Int.not_lt.2 hcopies]

/-- R165, R169: legal records that fit, then no record: INVALID_INPUT_LENGTH with the expansion of the records. -/
theorem rleDecode_items_truncated {items : List RleItem} (h : ∀ it ∈ items, it.legal = true) {c : Byte} {tail : List Byte}
    (hcut : rleRecord c tail = none) {cap : Nat} (hroom : (items.flatMap RleItem.expansion).length ≤ cap) :
    rleDecode (items.flatMap RleItem.stream ++ c :: tail) cap =
      ⟨some .invalidInputLength, items.flatMap RleItem.expansion, (items.flatMap RleItem.stream).length⟩ := by
  have hloop := rleLoop_items h 0 (c :: tail) (Nat.le_refl _) hroom
  simpa [rleDecode, rleLoop, hcut] using hloop

/-- Settles O18: the decoder writes the complete records and then finds no record. -/
theorem rleDecStopsAtTruncatedRecord : Obligations.RleDecStopsAtTruncatedRecord := by
  intro s items c tail hwf hsrc hdst hapart hlegal hstream hcut hroom
  rw [exec_rleDec_eq_finishRle hsrc hdst hapart, hstream,
    rleDecode_items_truncated hlegal (rleRecord_eq_none_of_truncated hcut) hroom]
  exact ⟨_, _, rfl, Memory.holds_writeBytes hwf _ _⟩

/-! ## A full destination (R170) -/

/-- R170: a record that does not fit fills the room there is, whatever follows it. -/
theorem rleLoop_stream_overflow {it : RleItem} (h : it.legal = true) (n pos : Nat) {room : Nat} (tail : List Byte)
    (hroom : room < it.expansion.length) :
    rleLoop (n + 1) pos room (it.stream ++ tail) = ⟨some .dstOverflow, it.expansion.take room, pos⟩ := by
  obtain ⟨b, bs, hstream, hrec⟩ := rleRecord_stream h tail
  rw [hstream]
  simp [rleLoop, hrec, hroom]

/-- R165, R170: records of which not all fit fill the room with the first bytes of their expansion. -/
theorem rleLoop_items_overflow {items : List RleItem} (h : ∀ it ∈ items, it.legal = true) {n room : Nat} (pos : Nat)
    (tail : List Byte) (hn : (items.flatMap RleItem.stream ++ tail).length ≤ n)
    (hroom : room < (items.flatMap RleItem.expansion).length) :
    ∃ pos', rleLoop n pos room (items.flatMap RleItem.stream ++ tail) =
      ⟨some .dstOverflow, (items.flatMap RleItem.expansion).take room, pos'⟩ := by
  induction items generalizing n room pos with
  | nil => exact absurd hroom (Nat.not_lt_zero _)
  | cons it items ih =>
    simp only [List.forall_mem_cons] at h
    simp only [List.flatMap_cons, List.append_assoc, List.length_append] at hn hroom ⊢
    have hpos := it.stream_length_pos
    obtain ⟨n, rfl⟩ : ∃ k, n = k + 1 := ⟨n - 1, by omega⟩
    rw [List.take_append]
    rcases Nat.lt_or_ge room it.expansion.length with hover | hfits
    · rw [rleLoop_stream_overflow h.1 n pos _ hover, Nat.sub_eq_zero_of_le (Nat.le_of_lt hover), List.take_zero,
        List.append_nil]
      exact ⟨pos, rfl⟩
    · obtain ⟨pos', hrest⟩ := ih h.2 (n := n) (room := room - it.expansion.length) (pos + it.stream.length)
        (by simp only [List.length_append]; omega) (by omega)
      rw [rleLoop_stream h.1 n pos _ hfits, hrest, List.take_of_length_le hfits]
      exact ⟨pos', rfl⟩

/-- Settles O19: the decoder's output is the part of the expansion that fits. -/
theorem rleDecStopsAtFullDestination : Obligations.RleDecStopsAtFullDestination := by
  intro s items tail hwf hsrc hdst hapart hlegal hstream hroom
  obtain ⟨pos, hdecode⟩ := rleLoop_items_overflow hlegal 0 tail (Nat.le_refl _) hroom
  have hout : BitVec.ofNat 32 ((items.flatMap RleItem.expansion).take s.latched.dstCap.toNat).length = s.latched.dstCap := by
    rw [List.length_take, Nat.min_eq_left (Nat.le_of_lt hroom), BitVec.ofNat_toNat, BitVec.setWidth_eq]
  rw [exec_rleDec_eq_finishRle hsrc hdst hapart, hstream, rleDecode, hdecode]
  generalize (items.flatMap RleItem.expansion).take s.latched.dstCap.toNat = out at hout ⊢
  rw [← hout]
  exact ⟨_, _, rfl, Memory.holds_writeBytes hwf _ _⟩

/-! ## The bound on the output (R171) -/

/-- R171: the loop writes at most 64 bytes for each byte of the stream, since each record stands for no more. -/
theorem rleLoop_out_length_le (n pos room : Nat) (bs : List Byte) : (rleLoop n pos room bs).out.length ≤ 64 * bs.length := by
  induction n generalizing pos room bs with
  | zero => simp [rleLoop]
  | succ n ih =>
    cases bs with
    | nil => simp [rleLoop]
    | cons b bs =>
      simp only [rleLoop]
      cases hr : rleRecord b bs with
      | none => simp
      | some r =>
        have hrecord := rleRecord_bytes_length hr
        simp only [List.length_cons]
        split
        · simp only [List.length_take]; omega
        · have hrest := ih (pos + r.len) (room - r.bytes.length) r.rest
          simp only [List.length_append]; omega

/-- Settles O20: a failed start check leaves DONE clear, and a run's OUT_LEN counts what the loop writes. -/
theorem rleDecOutputBound : Obligations.RleDecOutputBound := by
  intro s t hdone hexec ht
  rcases exec_cases hexec with ⟨-, hrun⟩ | ⟨e, -, hfail⟩
  · cases hrun
    rw [runOf_outLen s rfl, BitVec.toNat_ofNat]
    calc (outputOf .rleDec s).length % 2 ^ 32
      _ ≤ (outputOf .rleDec s).length := Nat.mod_le _ _
      _ ≤ 64 * s.srcBytes.length := rleLoop_out_length_le _ _ _ _
      _ = 64 * s.latched.srcLen.toNat := by rw [State.srcBytes, Memory.readBytes_length, Latched.src]
  · cases hfail
    simp [hdone] at ht

end Sys2Proof.Machine
end

section
/-! PROOFS. NOISE.INJ (R180 to R187): the selection is a set of bit positions, a function of seed, length and level alone, and
each output byte is its source byte XOR the byte's part of it. -/
namespace Sys2Proof.Machine

/-! ## The selection (R181 to R183, R185) -/

/-- R183, R185: the positions that NOISE.INJ selects. -/
def State.noiseSelection (s : State) (ent : Bool) : List Nat :=
  noiseSelect (s.noiseSeed ent) (8 * s.latched.srcLen.toNat) (noiseCount s.latched.srcLen.toNat s.latched.noiseLevel.toNat)

/-- R184: the unit's output is the source with the selection flipped. -/
theorem outputOf_noiseInj (ent : Bool) (s : State) :
    outputOf (.noiseInj ent) s = flipBytes (s.noiseSelection ent) 0 s.srcBytes := rfl

/-- R185: with ENT = 0 seed, length and level determine the selection. -/
theorem State.noiseSelection_congr {s1 s2 : State} (hseed : s1.latched.noiseSeed = s2.latched.noiseSeed)
    (hlevel : s1.latched.noiseLevel = s2.latched.noiseLevel) (hlen : s1.latched.srcLen = s2.latched.srcLen) :
    s1.noiseSelection false = s2.noiseSelection false := by
  simp [State.noiseSelection, State.noiseSeed, hseed, hlevel, hlen]

/-- R181: level 0 selects no bit. -/
theorem noiseCount_zero (len : Nat) : noiseCount len 0 = 0 := Nat.zero_div _

/-- R181, R182: level 100 percent selects every bit. -/
theorem noiseCount_levelMax (len : Nat) : noiseCount len Config.levelMax = 8 * len :=
  Nat.mul_div_cancel _ (by decide)

/-- R183: no position is selected for a count of 0. -/
theorem noiseSelect_zero (seed : Word) (N : Nat) : noiseSelect seed N 0 = [] := by
  obtain ⟨-, -, hlen⟩ := noiseSelect_spec seed (Nat.zero_le N)
  exact List.eq_nil_of_length_eq_zero hlen

/-- R183: a selection of as many positions as there are takes each of them. -/
theorem mem_noiseSelect_self (seed : Word) {N q : Nat} (hq : q < N) : q ∈ noiseSelect seed N N := by
  obtain ⟨hsorted, hlt, hlen⟩ := noiseSelect_spec seed (Nat.le_refl N)
  have hsubset : noiseSelect seed N N ⊆ List.range N := fun p hp => List.mem_range.2 (hlt p hp)
  have hsubperm := List.subperm_of_subset (hsorted.imp Nat.ne_of_lt) hsubset
  exact (hsubperm.perm_of_length_le (by simp [hlen])).mem_iff.2 (List.mem_range.2 hq)

/-! ## The mask of a byte (R184) -/

/-- R7: a byte is determined by its eight bits in stream order. -/
theorem byte_eq_of_streamBits {b c : Byte} (h : ∀ j < 8, b.getLsbD (7 - j) = c.getLsbD (7 - j)) : b = c := by
  refine BitVec.eq_of_getLsbD_eq fun k hk => ?_
  have hbit := h (7 - k) (by omega)
  rwa [show 7 - (7 - k) = k by omega] at hbit

/-- R184: with nothing selected no bit of a byte is flipped. -/
theorem flipMask_nil (i : Nat) : flipMask [] i = 0#8 :=
  byte_eq_of_streamBits fun j hj => by simp [flipMask_getLsbD [] i hj]

/-- R184: with all its positions selected every bit of a byte is flipped. -/
theorem flipMask_eq_allOnes {S : List Nat} {i : Nat} (h : ∀ j < 8, 8 * i + j ∈ S) : flipMask S i = BitVec.allOnes 8 :=
  byte_eq_of_streamBits fun j hj => by
    rw [flipMask_getLsbD S i hj, BitVec.getLsbD_allOnes, decide_eq_true (h j hj), decide_eq_true (by omega)]

/-! ## The completion (R104, R105, R180, R186) -/

/-- R105 to R108, R186: a legal level, windows that fit and are apart or start at the same address, and room for the source pass
the start checks. -/
theorem startChecks_noiseInj_eq_none {s : State} (ent : Bool) (hlevel : s.latched.noiseLevel.toNat ≤ Config.levelMax)
    (hsrc : s.SrcFits) (hdst : s.DstFits)
    (hplace : s.latched.src.Apart s.latched.dst ∨ s.latched.dstAddr = s.latched.srcAddr)
    (hroom : s.latched.srcLen.toNat ≤ s.latched.dstCap.toNat) : startChecks (.noiseInj ent) s = none := by
  have hsrcRange := hsrc.outOfRange_eq_false
  have hdstRange := hdst.outOfRange_eq_false
  refine (startChecks_eq_none _ _).2 ⟨?param, ?range, ?overlap, ?admission, ?length⟩
  case param => simpa [paramCheck] using hlevel
  case range => simp [rangeCheck, hsrcRange, hdstRange]
  case overlap =>
    rcases hplace with hapart | hsame
    · simp [overlapCheck, hapart.meets_eq_false]
    · simp [overlapCheck, (Latched.inPlace_iff s.latched (.noiseInj ent)).2 ⟨rfl, hsame⟩]
  case admission => simp [admitCheck, hsrc.admitsAll_eq_true, hdst.admitsAll_eq_true]
  case length => exact failsWith_eq_none.2 (decide_eq_false (Nat.not_lt.2 hroom))

/-- R104: only a command that passed its start checks sets DONE. -/
theorem exec_eq_runOf_of_done {i : Instr} {s t : State} (hexec : exec i s = .next t) (hsdone : s.regs.done = false)
    (htdone : t.regs.done = true) : startChecks i s = none ∧ t = runOf i s := by
  rcases exec_cases hexec with ⟨hchecks, h⟩ | ⟨e, -, h⟩ <;> cases h
  · exact ⟨hchecks, rfl⟩
  · simp [hsdone] at htdone

/-- R186, R38, R45: the registers that a completion Done of NOISE.INJ sets. -/
theorem State.finishNoise_eq (s : State) (ent : Bool) : s.finishNoise ent =
    { s with
      regs := { s.regs with
        phase := .idle, done := true
        flipCount := BitVec.ofNat 32 (noiseCount s.latched.srcLen.toNat s.latched.noiseLevel.toNat)
        outLen := s.latched.srcLen }
      mem := (s.finishNoise ent).mem, scratch := (s.finishNoise ent).scratch, draws := (s.finishNoise ent).draws } := by
  have houtLen : BitVec.ofNat 32 s.latched.src.len = s.latched.srcLen := BitVec.ofNat_toNat _ _
  simp only [State.finishNoise, houtLen]
  rfl

/-- R184: the output stands at the destination, and nothing else changes. -/
theorem holds_finishNoise {s : State} (ent : Bool) (hwf : s.mem.wf) :
    s.mem.Holds (s.finishNoise ent).mem s.latched.dstAddr.toNat (flipBytes (s.noiseSelection ent) 0 s.srcBytes) :=
  Memory.holds_writeBytes hwf _ _

/-- R184: each output byte is its source byte, as at acceptance, XOR the mask of the selection. -/
theorem read_finishNoise {s : State} (ent : Bool) (hwf : s.mem.wf) {i : Nat} (hi : i < s.latched.srcLen.toNat) :
    (s.finishNoise ent).mem.read (s.latched.dstAddr.toNat + i) =
      s.mem.read (s.latched.srcAddr.toNat + i) ^^^ flipMask (s.noiseSelection ent) i := by
  obtain ⟨hout, -⟩ := holds_finishNoise ent hwf
  have hbyte : s.srcBytes[i]? = some (s.mem.read (s.latched.srcAddr.toNat + i)) :=
    (Memory.getElem?_readBytes _ _ _ _).trans (if_pos hi)
  exact hout i _ (by simp only [getElem?_flipBytes, hbyte, Option.map_some, Nat.zero_add])

/-- Settles O26: the start checks pass, the selection has the count's length, and bit by bit the output is the source XOR
membership in the selection. -/
theorem noiseInjFlipsTheSelection : Obligations.NoiseInjFlipsTheSelection := by
  intro s ent hwf hlevel hsrc hdst hplace hroom
  obtain ⟨hsorted, hlt, hlen⟩ := noiseSelect_spec (s.noiseSeed ent) (noiseCount_le hlevel)
  have hrun : exec (.noiseInj ent) s = .next (s.finishNoise ent) :=
    exec_of_none (startChecks_noiseInj_eq_none ent hlevel hsrc hdst hplace hroom)
  refine ⟨s.noiseSelection ent, (s.finishNoise ent).mem, (s.finishNoise ent).scratch, (s.finishNoise ent).draws,
    hsorted, hlt, hlen, ?runs, fun i hi j hj => ?bits, fun a ha => ?frame⟩
  case runs =>
    rw [hrun, State.finishNoise_eq]
    rfl
  case bits => rw [read_finishNoise ent hwf hi, BitVec.getLsbD_xor, flipMask_getLsbD _ _ hj]
  case frame =>
    obtain ⟨-, hframe⟩ := holds_finishNoise ent hwf
    exact hframe a (by simpa [State.srcBytes, Latched.src] using ha)

/-! ## NOISE.INJ that completes Done (R187) -/

section
variable {s t : State} {ent : Bool} (hsdone : s.regs.done = false) (hexec : exec (.noiseInj ent) s = .next t)
  (htdone : t.regs.done = true)
include hsdone hexec htdone

theorem flipCount_of_noiseInj_done :
    t.regs.flipCount = BitVec.ofNat 32 (noiseCount s.latched.srcLen.toNat s.latched.noiseLevel.toNat) := by
  obtain ⟨-, rfl⟩ := exec_eq_runOf_of_done hexec hsdone htdone
  rfl

theorem read_of_noiseInj_done (hwf : s.mem.wf) {i : Nat} (hi : i < s.latched.srcLen.toNat) :
    t.mem.read (s.latched.dstAddr.toNat + i) =
      s.mem.read (s.latched.srcAddr.toNat + i) ^^^ flipMask (s.noiseSelection ent) i := by
  obtain ⟨-, rfl⟩ := exec_eq_runOf_of_done hexec hsdone htdone
  exact read_finishNoise ent hwf hi

/-- R106: the source is no longer than LEN_MAX. -/
theorem srcLen_le_of_noiseInj_done : s.latched.srcLen.toNat ≤ Config.lenMax := by
  obtain ⟨hchecks, -⟩ := exec_eq_runOf_of_done hexec hsdone htdone
  obtain ⟨-, hrange, -⟩ := (startChecks_eq_none _ s).1 hchecks
  obtain ⟨hsrc, -⟩ := (rangeCheck_eq_none_iff _ s).1 hrange
  obtain ⟨hlen, -⟩ := hsrc rfl
  exact hlen

end

/-- Settles O27: at level 0 the selection is empty and each mask 0, at 100 percent it is every position and each mask all ones. -/
theorem noiseInjAtTheExtremeLevels : Obligations.NoiseInjAtTheExtremeLevels := by
  intro s t ent hwf hsdone hexec htdone
  have hcount := flipCount_of_noiseInj_done hsdone hexec htdone
  refine ⟨fun hzero => ?zero, fun hmax => ?full⟩
  case zero =>
    have hnone : noiseCount s.latched.srcLen.toNat s.latched.noiseLevel.toNat = 0 := by
      rw [hzero]
      exact noiseCount_zero _
    refine ⟨by rw [hcount, hnone], fun i hi => ?_⟩
    rw [read_of_noiseInj_done hsdone hexec htdone hwf hi, State.noiseSelection, hnone, noiseSelect_zero,
      flipMask_nil, BitVec.xor_zero]
  case full =>
    have hall : noiseCount s.latched.srcLen.toNat s.latched.noiseLevel.toNat = 8 * s.latched.srcLen.toNat := by
      rw [hmax]
      exact noiseCount_levelMax _
    have hlen := srcLen_le_of_noiseInj_done hsdone hexec htdone
    refine ⟨?_, fun i hi => ?_⟩
    · rw [hcount, hall, BitVec.toNat_ofNat, Nat.mod_eq_of_lt]
      simp only [Config.lenMax] at hlen
      omega
    · rw [read_of_noiseInj_done hsdone hexec htdone hwf hi, State.noiseSelection, hall,
        flipMask_eq_allOnes fun j hj => mem_noiseSelect_self _ (by omega), BitVec.xor_allOnes]

/-- Settles O28: the XOR of output and source is the mask, and the two selections are equal. -/
theorem noiseInjIsReproducible : Obligations.NoiseInjIsReproducible := by
  intro s1 s2 t1 t2 hwf1 hwf2 hsdone1 hsdone2 hexec1 hexec2 htdone1 htdone2 hseed hlevel hlen i hi
  rw [read_of_noiseInj_done hsdone1 hexec1 htdone1 hwf1 hi, read_of_noiseInj_done hsdone2 hexec2 htdone2 hwf2 (hlen ▸ hi),
    State.noiseSelection_congr hseed hlevel hlen]
  simp only [← BitVec.xor_assoc, BitVec.xor_self, BitVec.zero_xor]

/-- Settles O29: the second command applies the mask of the first again, and the two cancel. -/
theorem noiseInjTwiceRestores : Obligations.NoiseInjTwiceRestores := by
  intro s1 s2 t1 t2 hwf1 hwf2 hsdone1 hsdone2 hexec1 hexec2 htdone1 htdone2 hseed hlevel hlen hchain i hi
  rw [read_of_noiseInj_done hsdone2 hexec2 htdone2 hwf2 (hlen ▸ hi), hchain i hi,
    read_of_noiseInj_done hsdone1 hexec1 htdone1 hwf1 hi, State.noiseSelection_congr hseed hlevel hlen,
    BitVec.xor_assoc, BitVec.xor_self, BitVec.xor_zero]

end Sys2Proof.Machine
end

section
/-! PROOFS. Exceptions (R198, R202): the interrupt line, and a host's write just before and just after a completion. -/
namespace Sys2Proof.Machine

/-! ## The interrupt line (R52, R198) -/

/-- R32: bits 0 and 1 of IRQ_EN are DONE_IE and ERR_IE. -/
theorem getLsbD_read_irqEn (r : Regs) : (r.read .irqEn).getLsbD 0 = r.doneIe ∧ (r.read .irqEn).getLsbD 1 = r.errIe := by
  simp only [Regs.read, Regs.irqEn, BitVec.getLsbD_or, getLsbD_bitAt]
  constructor <;> simp

/-- Settles O36: the bits that a host reads are the bits that drive the line, and a released reset does not mask it. -/
theorem irqFollowsStatusAndEnables : Obligations.IrqFollowsStatusAndEnables := by
  intro s hrst
  obtain ⟨hdoneIe, herrIe⟩ := getLsbD_read_irqEn s.regs
  have hdone : (s.regs.read .status).getLsbD 1 = s.regs.done := statusReadsBitByBit s.regs 1
  have herr : (s.regs.read .status).getLsbD 2 = s.regs.err := statusReadsBitByBit s.regs 2
  have hovr : (s.regs.read .status).getLsbD 3 = s.regs.cmdOvr := statusReadsBitByBit s.regs 3
  rw [hdone, herr, hovr, hdoneIe, herrIe, State.irq, hrst]
  exact Bool.true_and _

/-! ## The two orders of a completion and a write (R202) -/

/-- R104: a command in progress completes: the block is idle, DONE or ERR is 1, and CMD_OVR and CMD are kept. -/
theorem engineTurn_completes {s : State} (hbusy : s.regs.phase = .busy) :
    ∃ t, engineTurn s = .next t ∧ t.regs.phase = .idle ∧ (t.regs.done || t.regs.err) = true ∧
      t.regs.cmdOvr = s.regs.cmdOvr ∧ t.regs.cmd = s.regs.cmd := by
  cases hd : decode s.latched.cmd with
  | error r => exact ⟨_, engineTurn_error hbusy hd, rfl, Bool.or_true _, rfl, rfl⟩
  | ok i =>
    obtain ⟨t, e, x, hexec, hregs⟩ := exec_completes i s
    refine ⟨t, (engineTurn_ok hbusy hd).trans hexec, exec_phase hexec, ?_⟩
    rw [hregs]
    cases e <;> simp [Regs.setResults]

/-- A register write just after the engine's turn. -/
theorem applyInput_regWrite_of_engineTurn {s b : State} (h : engineTurn s = .next b) (hrst : s.resetAsserted = false) (r : Reg)
    (v : Word) : applyInput (.regWrite (s.platform.regBase + r.offset) 4 v) b = .next (b.writeReg r v) := by
  obtain ⟨hplatform, hreset⟩ := engineTurn_frame h
  rw [← hplatform, applyInput_regWrite r v (hreset.trans hrst)]

/-- R204: the word 0x0E written to STATUS clears DONE, ERR and CMD_OVR. -/
theorem Regs.clearStatus_acknowledge (r : Regs) :
    r.clearStatus 0x0000000E#32 = { r with done := false, err := false, cmdOvr := false } := by
  simp [Regs.clearStatus]

/-- Settles O38: before the completion each write leaves a state whose turn is known (BUSY, or idle after the reset); after it each
write meets an idle block. -/
theorem bothOrdersOfCompletionAndWrite : Obligations.BothOrdersOfCompletionAndWrite := by
  intro s b w hrst hbusy _ _ hb
  change engineTurn s = .next b at hb
  obtain ⟨b', ht, hphase, -, hovr, -⟩ := engineTurn_completes hbusy
  obtain rfl : b = b' := by cases hb.symm.trans ht; rfl
  refine ⟨?cmdBefore, ?cmdAfter, ?statusBefore, ?statusAfter, ?resetBefore, ?resetAfter⟩
  case cmdBefore =>
    obtain ⟨t, ht, hidle, -, hovr, hcmd⟩ := engineTurn_completes (s := s.dropCmd) hbusy
    exact ⟨s.dropCmd, t, State.issue_busy hbusy w ▸ applyInput_writeCmd w hrst, ht, hovr, hcmd, hidle⟩
  case cmdAfter =>
    exact ⟨b.accept w, State.issue_idle hphase w ▸ applyInput_regWrite_of_engineTurn hb hrst .cmd w, hovr, rfl, rfl⟩
  case statusBefore =>
    obtain ⟨t, ht, -, hdone, hovr, -⟩ := engineTurn_completes (s := s.writeReg .status 0x0000000E#32) hbusy
    refine ⟨_, t, applyInput_regWrite .status _ hrst, ht, hdone, hovr.trans ?_⟩
    exact congrArg Regs.cmdOvr s.regs.clearStatus_acknowledge
  case statusAfter =>
    refine ⟨_, applyInput_regWrite_of_engineTurn hb hrst .status _, ?_⟩
    simp [State.writeReg, Regs.clearStatus_acknowledge]
  case resetBefore =>
    have hturn : engineTurn s.resetBlock = .next s.resetBlock := engineTurn_idle rfl
    exact ⟨s.resetBlock, applyInput_regWrite .ctrl 1#32 hrst, hturn, rfl, rfl⟩
  case resetAfter =>
    exact ⟨b.resetBlock, applyInput_regWrite_of_engineTurn hb hrst .ctrl 1#32, rfl⟩

end Sys2Proof.Machine
end

section
/-! PROOFS. A reset while a command is in progress (R223): which bytes of data memory it leaves open, and what it leaves there. -/
namespace Sys2Proof.Machine

/-- R107: NOISE.INJ is the only command that may run in place. -/
theorem mayRunInPlace_iff (i : Instr) : mayRunInPlace i = true ↔ ∃ ent, i = .noiseInj ent := by
  cases i <;> simp [mayRunInPlace]

/-- R223: the bytes left open, in the words of the rule. A destination byte outside the source window is open in place too, so the
second case needs no premise that the command is not in place. -/
theorem Latched.leavesOpen_iff (l : Latched) (i : Instr) (a : Nat) : l.leavesOpen i a = true ↔
    ((∃ ent, i = .noiseInj ent) ∧ l.dstAddr = l.srcAddr ∧ (l.src.contains a = true ∨ l.dst.contains a = true)) ∨
      (usesDst i = true ∧ l.dst.contains a = true ∧ l.src.contains a = false) := by
  have hplace : l.inPlace i = true ↔ (∃ ent, i = .noiseInj ent) ∧ l.dstAddr = l.srcAddr := by
    rw [Latched.inPlace_iff, mayRunInPlace_iff]
  rw [Latched.leavesOpen, ← and_assoc, ← hplace]
  by_cases h : l.inPlace i = true
  · simp only [h, if_true, Bool.or_eq_true, true_and]
    exact ⟨.inl, fun hopen => hopen.elim id fun ⟨_, hdst, _⟩ => .inr hdst⟩
  · simp [h, and_assoc]

/-- R220, R222: a soft and a hard reset give every register its reset value, and memory is as the abandonment leaves it. -/
theorem regs_and_mem_of_reset {s t : State} {v : Word}
    (h : (s.resetAsserted = false ∧ v.getLsbD 0 = true ∧
        applyInput (.regWrite (s.platform.regBase + 0x010) 4 v) s = .next t) ∨
      applyInput .assertReset s = .next t) : t.regs = Regs.reset ∧ t.mem = s.abandon.mem := by
  rcases h with ⟨hrst, hv, hsoft⟩ | hhard
  · have hnext := (applyInput_regWrite .ctrl v hrst).symm.trans hsoft
    rw [State.writeReg_ctrl, hv] at hnext
    cases hnext
    exact ⟨rfl, rfl⟩
  · cases hhard
    exact ⟨rfl, rfl⟩

/-- Settles O40: a byte that changed was left open, and each existing byte left open reads as the free byte. -/
theorem resetAbandonsTheCommand : Obligations.ResetAbandonsTheCommand := by
  intro s t i v hbusy hdecode hreset
  obtain ⟨hregs, hmem⟩ := regs_and_mem_of_reset hreset
  rw [hmem]
  have hchanged : ∀ a, s.abandon.mem.read a ≠ s.mem.read a → s.latched.leavesOpen i a = true := fun a hne =>
    Bool.of_not_eq_false fun hclosed => hne (State.read_abandon_other hbusy hdecode hclosed)
  refine ⟨hregs, fun a hne => ?changes, fun hnot a hsrc => ?source, fun hwf a ha hopen => ?free⟩
  case changes =>
    rcases (s.latched.leavesOpen_iff i a).1 (hchanged a hne) with ⟨hnoise, haddr, hsrc | hdst⟩ | ⟨huses, hdst, -⟩
    · exact .inr ⟨hnoise, haddr, hsrc⟩
    · obtain ⟨ent, rfl⟩ := hnoise
      exact .inl ⟨rfl, hdst⟩
    · exact .inl ⟨huses, hdst⟩
  case source =>
    by_contra hne
    rcases (s.latched.leavesOpen_iff i a).1 (hchanged a hne) with ⟨⟨ent, hi⟩, haddr, -⟩ | ⟨-, -, houtside⟩
    · exact hnot ent hi haddr
    · rw [hsrc] at houtside
      cases houtside
  case free =>
    exact State.read_abandon_open hbusy hdecode hwf ha ((s.latched.leavesOpen_iff i a).2 hopen)

end Sys2Proof.Machine
end
